-- ==== Sys2Proof/Word.lean ====
section
/-! DEFINITION. The two bit-vector types of the spec: a byte and a 32-bit word (00_scope.md R10, R11). -/

namespace Sys2Proof

/-- A byte: an 8-bit unsigned value (R11). -/
abbrev Byte := BitVec 8

/-- A word: a 32-bit unsigned value (R10). -/
abbrev Word := BitVec 32

/-- A 64-bit bus address, used as given: no translation (R8 `ADDR_W`, R68). -/
abbrev Addr := BitVec 64

end Sys2Proof
end

