-- ==== Sys2Proof/Machine/Bits.lean ====
section
/-! DEFINITION. The rotate and the byte-order conversions of the notation (00_scope.md R10, R11; 20_memory.md R54). -/

namespace Sys2Proof.Machine

/-- `rol_n(x)`: the rotate-left of R10, for 1 ≤ n ≤ 31. -/
def rol (n : Nat) (x : Word) : Word := (x <<< n) ||| (x >>> (32 - n))

/-- `be32(s)`: the big-endian word of a 4-byte string (R11). -/
def be32 (s : List Byte) : Word := s.getD 0 0 ++ s.getD 1 0 ++ s.getD 2 0 ++ s.getD 3 0

/-- `be32bytes(w)`: the inverse of `be32` (R11). -/
def be32bytes (w : Word) : List Byte :=
  [w.extractLsb' 24 8, w.extractLsb' 16 8, w.extractLsb' 8 8, w.extractLsb' 0 8]

/-- `le32(s)`: byte 0 is the least significant (R11). -/
def le32 (s : List Byte) : Word := s.getD 3 0 ++ s.getD 2 0 ++ s.getD 1 0 ++ s.getD 0 0

/-- `le64(s)`: byte 0 is the least significant (R11). -/
def le64 (s : List Byte) : BitVec 64 := le32 ((s.drop 4).take 4) ++ le32 (s.take 4)

/-- `le32bytes(w)`: the inverse of `le32` (R11). -/
def le32bytes (w : Word) : List Byte :=
  [w.extractLsb' 0 8, w.extractLsb' 8 8, w.extractLsb' 16 8, w.extractLsb' 24 8]

/-- `zeros(n)` (R11). -/
def zeros (n : Nat) : List Byte := List.replicate n 0

/-- `s ^ b`: XORs every byte of `s` with `b` (R11). -/
def xorBytes (s : List Byte) (b : Byte) : List Byte := s.map (· ^^^ b)

/-- The first `n` bytes of a string as a register of `n` bytes, zero-filled where the string is shorter. -/
def toBytes (n : Nat) (s : List Byte) : Vector Byte n :=
  ⟨⟨(s ++ List.replicate n 0).take n⟩, by simp⟩

end Sys2Proof.Machine
end

