-- ==== Sys2Proof/Config.lean ====
section
/-! DEFINITION. What the platform fixes for an engine, and the free values the spec leaves open.
The platform parameters of R9 that the engine consults are plain data, so that a run can be written down and compared;
the free values ("a draw" in the spec's words) are opaque: nothing can be proved about which value one is. -/

namespace Sys2Proof

/-- The `kind` argument of `MemAdmits` (R51). -/
inductive AccessKind where
  | read
  | write
deriving DecidableEq, Repr

/-- A half-open range of byte addresses: `len` bytes from `addr` (unbounded integers, R10). -/
structure Range where
  addr : Nat
  len : Nat
deriving DecidableEq, Repr

/-- One clause of `MemAdmits`: every access of this kind whose start lies in `starts` and whose length lies in
`lengths` is refused. -/
structure Denial where
  kind : AccessKind
  starts : Range
  lengths : Range
deriving DecidableEq, Repr

/-- The platform's parameters (R9, R51, R66): fixed for a run, never written by a step.
`basePage` is `BASE` without its low 8 bits, so that `BASE` is 256-byte aligned by construction.
`denied` lists the accesses `MemAdmits` refuses: lengths and addresses are bounded (R8), so every predicate of the
three arguments is such a list. `devices` lists memory with read side effects (R58, 93 U12). -/
structure Platform where
  basePage : BitVec 56
  denied : List Denial
  devices : List Range
  dmaCoherent : Bool
deriving DecidableEq, Repr

/-- What a free byte stands for, so that two uses of one draw number at one address are independent. -/
inductive FreeUse where
  /-- the byte the engine reads in its `n`-th access of a command (R62, R66) -/
  | engineRead (n : Nat)
  /-- the byte a command leaves in a raced destination (R62) -/
  | engineWrite
  /-- the byte another agent's load returns (R62, R66) -/
  | agentLoad
  /-- the byte left in a destination another agent touches after completion (R62) -/
  | racedDestination
  /-- the byte of an aborted command's destination (R231) -/
  | abortedDestination
  /-- the byte left by a cache operation that discards or overwrites a newer one (R66) -/
  | cacheOperation
deriving DecidableEq, Repr

/-- FREE VALUE: the byte drawn at draw number `draw` for `use` at address `addr` (R62, R66, R231). No body: nothing
constrains it (log 10 to 13). -/
opaque Config.freeByte (draw : Nat) (use : FreeUse) (addr : Nat) : Byte

/-- FREE VALUE: the word a read of a `CTX_*` register returns while a context command is busy (R40). No body
(log 9). -/
opaque Config.freeWord (draw : Nat) : Word

end Sys2Proof
end

