-- ==== Sys2Proof/Machine/State.lean ====
section
/-! DEFINITION. The state of one engine instance, with the system memory it reaches and the agents that act on it
(10_state.md), as plain data; the reasons a step stops; and the state after reset (R45). -/

namespace Sys2Proof.Machine

/-- Why the machine stops with a fault. -/
inductive Fault where
  /-- BusFault (R207): an engine access that `MemAdmits` refuses or whose range wraps past 2^64 - 1; `addr` is the start
  of the refused access and `cmdlat` the latched command word. Raised by every engine read and write of memory. Safe: the
  spec gives no behaviour after it, and nothing is claimed of it (DEDUCED, log 17). -/
  | busFault (addr : Nat) (cmdlat : Word)
deriving DecidableEq, Repr

/-- Why the model has no meaning for what it is asked to do. -/
inductive Refusal where
  /-- An instruction without a meaning yet; raised by no arm of this model. Safe. -/
  | notModelled (mnemonic : String)
  /-- A host access to the register window that is not an aligned 32-bit access at offset 0x00 to 0xFC (R32, 93 U2);
  raised by the host's reads and writes. Safe: the model stops. -/
  | windowAccess (addr : Nat) (width : Nat)
  /-- An operand that names memory with read side effects (R58, 93 U12); raised by every engine access. Safe. -/
  | deviceMemory (addr : Nat)
deriving DecidableEq, Repr

/-- The result codes of `STATUS.RESULT` (R201). The codes 6 to 15 are never produced, so they are no value
here (DEDUCED, log 16). -/
inductive ResultCode where
  | none
  | ok
  | errFragCount
  | errVersion
  | errIllegalCmd
  | errSequence
deriving DecidableEq, Repr

/-- STATUS (R25). The reserved bits read 0 and hold nothing. -/
structure Status where
  busy : Bool
  ctxValid : Bool
  result : ResultCode
deriving DecidableEq, Repr

/-- The operand registers (R22). -/
structure Operands where
  srcAddrLo : Word
  srcAddrHi : Word
  srcLen : Word
  keyAddrLo : Word
  keyAddrHi : Word
  keyLen : Word
  dstAddrLo : Word
  dstAddrHi : Word
  version : Word
deriving DecidableEq, Repr

/-- Five state words `H[0..4]` (R108). -/
structure HashWords where
  h0 : Word
  h1 : Word
  h2 : Word
  h3 : Word
  h4 : Word
deriving DecidableEq, Repr

/-- A hash context (R108): five state words, the 64-bit bit count and the 64-byte buffer. -/
structure Ctx where
  h : HashWords
  count : BitVec 64
  buf : Vector Byte 64
deriving DecidableEq, Repr

/-- The message schedule `W[0..15]` and the working variables `a` to `e` of the compression transform (R35). -/
structure Work where
  w : Vector Word 16
  a : Word
  b : Word
  c : Word
  d : Word
  e : Word
deriving DecidableEq, Repr

/-- The hidden scratch state (R35); zero between steps (DEDUCED, log 14). -/
structure Scratch where
  scr : Ctx
  work : Work
  tk : Vector Byte 20
  pad : Vector Byte 64
  idig : Vector Byte 20
  macbuf : Vector Byte 20
  fc : Vector Byte 8
deriving DecidableEq, Repr

/-- What the model keeps of the other agents' accesses to memory, to give the spec's "any value" where a duty of R62 or
R66 is broken. `writes` and `reads`: the bytes another agent has written or read since the command in progress was
accepted. `unseen`: the destinations of commands that have completed without a host read of STATUS that returned
BUSY = 0. `dirty`: bytes the host has stored through its cache and not cleaned. `stale`: bytes written not through
the host's caches, by the engine or another agent, and not invalidated since (log 4, 10 to 12). -/
structure Sharing where
  writes : List Nat
  reads : List Nat
  unseen : List Range
  dirty : List Nat
  stale : List Nat
deriving DecidableEq, Repr

/-- One turn of an agent (R20): what the outside world does to the engine and to memory, and the turn it leaves to the
engine (DESIGN CHOICE, log 3). -/
inductive Turn where
  /-- the host writes `value` in an access of `width` bytes at bus address `addr` of the window (R32, R78 `WR`) -/
  | write (addr : Addr) (width : Nat) (value : Word)
  /-- the host reads `width` bytes at bus address `addr` of the window (R32, R78 `RD`) -/
  | read (addr : Addr) (width : Nat)
  /-- the host repeats `RD STATUS` until BUSY reads 0 (R78 `POLL`) -/
  | poll
  /-- the engine takes its step, if it is busy (R41) -/
  | engine
  /-- the reset input is applied (R230) -/
  | reset
  /-- an agent other than the engine stores one byte of system memory; `cached`: through the host's caches (R62, R66) -/
  | store (cached : Bool) (addr : Addr) (value : Byte)
  /-- an agent other than the engine loads one byte of system memory (R62, R66) -/
  | load (cached : Bool) (addr : Addr)
  /-- the host cleans its caches over a range (R66) -/
  | clean (range : Range)
  /-- the host invalidates its caches over a range (R66) -/
  | invalidate (range : Range)
deriving DecidableEq, Repr

/-- System memory (R50): the listed bytes by address, strictly rising, none equal to what an unlisted address reads as. -/
abbrev Memory := List Host.Cell

/-- One engine instance and what surrounds it. `agenda`, `readData` and `draws` are the model's own: the turns the agents
still take (in order), the value the last host read returned, and the number of the next draw (DESIGN CHOICE, log 4). -/
structure State where
  ops : Operands
  status : Status
  ctx : Ctx
  cmdlat : Word
  scratch : Scratch
  mem : Memory
  platform : Platform
  sharing : Sharing
  agenda : List Turn
  readData : Word
  draws : Nat
deriving DecidableEq, Repr

/-- Five zero words. -/
def HashWords.zero : HashWords := ⟨0, 0, 0, 0, 0⟩

/-- `ZeroCtx` (R108): every field zero. -/
def Ctx.zero : Ctx := ⟨HashWords.zero, 0, Vector.replicate 64 0⟩

/-- The schedule and working variables all zero (R106). -/
def Work.zero : Work := ⟨Vector.replicate 16 0, 0, 0, 0, 0, 0⟩

/-- Every scratch item zero (R36). -/
def Scratch.zero : Scratch :=
  ⟨Ctx.zero, Work.zero, Vector.replicate 20 0, Vector.replicate 64 0, Vector.replicate 20 0, Vector.replicate 20 0,
    Vector.replicate 8 0⟩

/-- The operand registers at reset (R21, R45). -/
def Operands.zero : Operands := ⟨0, 0, 0, 0, 0, 0, 0, 0, 0⟩

/-- STATUS at reset (R45): BUSY = 0, CTX_VALID = 0, RESULT = NONE. -/
def Status.reset : Status := ⟨false, false, .none⟩

/-- No access of another agent is noted. -/
def Sharing.empty : Sharing := ⟨[], [], [], [], []⟩

/-- The platform of `State.reset` (DESIGN CHOICE, log 2): window at 0, every access admitted, no device memory, coherent. -/
def resetPlatform : Platform := ⟨0, [], [], true⟩

/-- The machine right after reset (R45, R230, R232). Memory lists nothing, and no agent has a turn waiting. -/
def State.reset : State where
  ops := Operands.zero
  status := Status.reset
  ctx := Ctx.zero
  cmdlat := 0
  scratch := Scratch.zero
  mem := []
  platform := resetPlatform
  sharing := Sharing.empty
  agenda := []
  readData := 0
  draws := 0

end Sys2Proof.Machine
end

