-- ==== Sys2Proof/Machine/Sha1Core.lean ====
section
/-! DEFINITION. The SHA-1 core functions (40_sha1_core.md R100 to R118): pure and total, no register and no memory. -/

namespace Sys2Proof.Machine

/-- The initial hash value (R101; PRESUMED by the spec, log 18). -/
def sha1IV : HashWords := ⟨0x67452301#32, 0xEFCDAB89#32, 0x98BADCFE#32, 0x10325476#32, 0xC3D2E1F0#32⟩

/-- The mixing function `f_p` of phase `p` (R102). -/
def mixFn (p : Nat) (w x y : Word) : Word :=
  match p with
  | 0 => (w &&& (x ^^^ y)) ^^^ y
  | 1 => w ^^^ x ^^^ y
  | 2 => ((w ||| x) &&& y) ||| (w &&& x)
  | _ => w ^^^ x ^^^ y

/-- The constant `K_p` of phase `p` (R102). -/
def phaseConst (p : Nat) : Word :=
  match p with
  | 0 => 0x5A827999#32
  | 1 => 0x6ED9EBA1#32
  | 2 => 0x8F1BBCDC#32
  | _ => 0xCA62C1D6#32

/-- The sixteen big-endian words of a block (R100). -/
def blockWords (block : List Byte) : Vector Word 16 :=
  Vector.ofFn fun t : Fin 16 => be32 ((block.drop (4 * t.val)).take 4)

/-- The schedule word `W[i mod 16]`. -/
def schedWord (k : Work) (i : Nat) : Word := k.w[i % 16]'(Nat.mod_lt i (by decide))

/-- The in-place schedule update before round `i`, from round 16 on (R103). -/
def expandSchedule (i : Nat) (k : Work) : Work :=
  if i < 16 then k
  else
    let x := rol 1 (schedWord k (i - 3) ^^^ schedWord k (i - 8) ^^^ schedWord k (i - 14) ^^^ schedWord k i)
    { k with w := Vector.set k.w (i % 16) x (Nat.mod_lt i (by decide)) }

/-- Round `i` on the working variables (R104). -/
def sha1Round (i : Nat) (k : Work) : Work :=
  { k with
    a := rol 5 k.a + mixFn (i / 20) k.b k.c k.d + k.e + phaseConst (i / 20) + schedWord k i
    b := k.a
    c := rol 30 k.b
    d := k.c
    e := k.d }

/-- Rounds 0 to `n - 1`, each after its schedule update (R105). -/
def sha1Rounds (n : Nat) (k : Work) : Work :=
  (List.range n).foldl (fun k i => sha1Round i (expandSchedule i k)) k

/-- `Compress(H, B)` (R105). The schedule and the working variables are local to it: they are zero again when it
returns (R106), and the scratch registers that hold them are zeroed by `complete`. -/
def compress (h : HashWords) (block : List Byte) : HashWords :=
  let k := sha1Rounds 80 ⟨blockWords block, h.h0, h.h1, h.h2, h.h3, h.h4⟩
  ⟨h.h0 + k.a, h.h1 + k.b, h.h2 + k.c, h.h3 + k.d, h.h4 + k.e⟩

/-- `COUNT_LO` (R108). -/
def Ctx.countLo (c : Ctx) : Word := c.count.extractLsb' 0 32

/-- `COUNT_HI` (R108). -/
def Ctx.countHi (c : Ctx) : Word := c.count.extractLsb' 32 32

/-- The fill level, `COUNT_LO[8:3]` (R109). -/
def Ctx.fill (c : Ctx) : Nat := (c.countLo.extractLsb' 3 6).toNat

/-- The count after `n` bytes are absorbed: `(COUNT + 8*n) mod 2^64` (R110). -/
def addCount (count : BitVec 64) (n : Nat) : BitVec 64 := count + BitVec.ofNat 64 (8 * n)

/-- `BUF[j .. j + len(d)) <- d`, the other bytes unchanged. -/
def splice (buf : Vector Byte 64) (j : Nat) (d : List Byte) : Vector Byte 64 :=
  toBytes 64 (buf.toList.take j ++ d ++ buf.toList.drop (j + d.length))

/-- Compresses the first `n` 64-byte windows of `data`, in order. -/
def compressWindows : Nat → HashWords → List Byte → HashWords
  | 0, h, _ => h
  | n + 1, h, data => compressWindows n (compress h (data.take 64)) (data.drop 64)

/-- `Absorb(ctx, data)` (R111). The loop `while i + 63 < n` of the rule runs once for each whole window left after the
first, which is `(n - i) / 64` times (DEDUCED, log 19). -/
def absorb (c : Ctx) (data : List Byte) : Ctx :=
  let n := data.length
  let j := c.fill
  let count := addCount c.count n
  if j + n > 63 then
    let i := 64 - j
    let buf := splice c.buf j (data.take i)
    let rest := data.drop i
    let windows := rest.length / 64
    { h := compressWindows windows (compress c.h buf.toList) rest
      count := count
      buf := splice buf 0 (rest.drop (64 * windows)) }
  else
    { h := c.h, count := count, buf := splice c.buf j data }

/-- `while fill(ctx) != 56: ctx <- Absorb(ctx, [0x00])` (R113), at most `fuel` times. -/
def padZeros : Nat → Ctx → Ctx
  | 0, c => c
  | fuel + 1, c => if c.fill = 56 then c else padZeros fuel (absorb c [0x00#8])

/-- The digest bytes of five state words (R115). -/
def digestBytes (h : HashWords) : List Byte :=
  be32bytes h.h0 ++ be32bytes h.h1 ++ be32bytes h.h2 ++ be32bytes h.h3 ++ be32bytes h.h4

/-- `FC`, the captured bit count: big-endian, high half first (R113). -/
def countBytes (c : Ctx) : List Byte := be32bytes c.countHi ++ be32bytes c.countLo

/-- The context of `Finish` after padding and the count (R113). The zero loop ends within 64 turns: the fill takes every
value of 0 to 63 on the way (DEDUCED, log 19). -/
def padded (c : Ctx) : Ctx := absorb (padZeros 64 (absorb c [0x80#8])) (countBytes c)

/-- `Finish(ctx)` (R113, R116): the digest, and the zeroed context. -/
def finish (c : Ctx) : List Byte × Ctx := (digestBytes (padded c).h, Ctx.zero)

/-- `InitCtx(ctx)` (R117): the buffer is unchanged. -/
def initCtx (c : Ctx) : Ctx := { h := sha1IV, count := 0, buf := c.buf }

/-- `SHA1(frags)` (R118). -/
def sha1 (frags : List (List Byte)) : List Byte := (finish (frags.foldl absorb (initCtx Ctx.zero))).1

end Sys2Proof.Machine
end

