-- ==== Sys2Proof/Machine/HmacCore.lean ====
section
/-! DEFINITION. HMAC-SHA1 as a pure function (42_hmac_commands.md R150 to R155), and the truncation of the MIC (R172). -/

namespace Sys2Proof.Machine

/-- The key of the pads: a key longer than 64 bytes becomes its digest (R151). -/
def shortenKey (key : List Byte) : List Byte := if key.length > 64 then sha1 [key] else key

/-- The 64-byte pad of a key and a pad byte (R152). -/
def hmacPad (k : List Byte) (b : Byte) : List Byte := xorBytes (k ++ zeros (64 - k.length)) b

/-- The inner digest `IDIG` (R153). -/
def innerDigest (key : List Byte) (frags : List (List Byte)) : List Byte :=
  sha1 (hmacPad (shortenKey key) 0x36#8 :: frags)

/-- `HmacFn(key, frags)` (R150, R154). -/
def hmacFn (key : List Byte) (frags : List (List Byte)) : List Byte :=
  sha1 [hmacPad (shortenKey key) 0x5c#8, innerDigest key frags]

/-- The MIC: the first 16 bytes of the HMAC of the frame (R170, R172). -/
def micOf (key frame : List Byte) : List Byte := (hmacFn key [frame]).take 16

end Sys2Proof.Machine
end

