-- ==== Sys2Proof/Syntax.lean ====
section
/-! DEFINITION. The seven commands: one constructor per row of spec/opcode_table.json (30_encoding.md R73).
A command word carries no operand (R70), so no constructor has a field. -/

namespace Sys2Proof

/-- The commands of the engine (R3, R73). -/
inductive Instr where
  /-- SHA1_INIT (R130) -/
  | sha1Init
  /-- SHA1_UPDATE (R131) -/
  | sha1Update
  /-- SHA1_FINAL (R132) -/
  | sha1Final
  /-- SHA1_VECTOR (R133) -/
  | sha1Vector
  /-- HMAC_VECTOR (R156) -/
  | hmacVector
  /-- HMAC (R157) -/
  | hmac
  /-- EAPOL_MIC (R170) -/
  | eapolMic
deriving DecidableEq, Repr

/-- A host access to the register window as the bus carries it: a byte offset from `BASE` and a width in bytes (R32). -/
structure WindowAccess where
  offset : Nat
  width : Nat
deriving DecidableEq, Repr

end Sys2Proof
end

