-- ==== Sys2Proof/WellFormed.lean ====
section
/-! DEFINITION. What is well formed: a command (always, it has no operand field), a command word (R70 to R73, R76), and a
host access to the register window (R32). -/

namespace Sys2Proof

/-- Every command is well formed: its one format has no operand field whose value could be out of range (R70). -/
def Instr.wf : Instr → Bool
  | .sha1Init => true
  | .sha1Update => true
  | .sha1Final => true
  | .sha1Vector => true
  | .hmacVector => true
  | .hmac => true
  | .eapolMic => true

/-- The OPCODE field, bits 7:0 of a command word (R71). -/
def opcodeField (v : Word) : BitVec 8 := v.extractLsb' 0 8

/-- The RSV field, bits 31:8 of a command word (R72). -/
def rsvField (v : Word) : BitVec 24 := v.extractLsb' 8 24

/-- A legal command word: RSV is 0 and OPCODE is 0x01 to 0x07 (R72, R73, R76). -/
def wellFormedWord (v : Word) : Bool :=
  rsvField v == 0 && (1 ≤ (opcodeField v).toNat && (opcodeField v).toNat ≤ 7)

/-- R32: a naturally aligned 32-bit access at an offset 0x00 to 0xFC. -/
def WindowAccess.wf (x : WindowAccess) : Bool :=
  x.width == 4 && x.offset % 4 == 0 && x.offset ≤ 0xFC

end Sys2Proof
end

