-- ==== Sys2Proof/Decode.lean ====
section
/-! DEFINITION. The decoder of command words (30_encoding.md R70 to R77), total, rejecting by name; then the encoder,
written from the opcode map (R73), and the host's view of the opcode table. -/

namespace Sys2Proof

/-- Why a command word is illegal (R76); the two names are the model's (DESIGN CHOICE, log 22). -/
inductive DecodeError where
  /-- a bit of RSV is set, whatever the OPCODE (R72) -/
  | reservedBits
  /-- OPCODE is 0x00 or 0x08 to 0xFF (R73) -/
  | illegalOpcode
deriving DecidableEq, Repr

/-- The opcode map of R73, from the OPCODE field. -/
def decodeOpcode (op : BitVec 8) : Except DecodeError Instr :=
  match op.toNat with
  | 0x01 => .ok .sha1Init
  | 0x02 => .ok .sha1Update
  | 0x03 => .ok .sha1Final
  | 0x04 => .ok .sha1Vector
  | 0x05 => .ok .hmacVector
  | 0x06 => .ok .hmac
  | 0x07 => .ok .eapolMic
  | _ => .error .illegalOpcode

/-- The command a command word selects (R71 to R73), or why it is illegal (R76). -/
def decode (v : Word) : Except DecodeError Instr :=
  if rsvField v = 0 then decodeOpcode (opcodeField v) else .error .reservedBits

/-- The command word of each command (R73). -/
def encode : Instr → Word
  | .sha1Init => 0x00000001#32
  | .sha1Update => 0x00000002#32
  | .sha1Final => 0x00000003#32
  | .sha1Vector => 0x00000004#32
  | .hmacVector => 0x00000005#32
  | .hmac => 0x00000006#32
  | .eapolMic => 0x00000007#32

/-- What the decoder reads from a command of `nbits` bits `w`, bit 0 the least significant bit of its one 32-bit word
(R70, R77); bits above `nbits` are 0, and a value that does not fit the 32-bit word is no command. -/
def decodeTableWord (nbits w : Nat) : Option Instr :=
  let v := w % 2 ^ nbits
  if v < 2 ^ 32 then (decode (BitVec.ofNat 32 v)).toOption else none

end Sys2Proof
end

