-- ==== Sys2Proof/Machine/Operands.lean ====
section
/-! DEFINITION. How operands are assembled from the operand registers (10_state.md R23; 30_encoding.md R74, R75). -/

namespace Sys2Proof.Machine

/-- `SRC_ADDR` (R23): `HI * 2^32 + LO`, the high half above the low half. -/
def Operands.srcAddr (o : Operands) : Nat := (o.srcAddrHi ++ o.srcAddrLo).toNat

/-- `KEY_ADDR` (R23): `HI * 2^32 + LO`, the high half above the low half. -/
def Operands.keyAddr (o : Operands) : Nat := (o.keyAddrHi ++ o.keyAddrLo).toNat

/-- `DST_ADDR` (R23): `HI * 2^32 + LO`, the high half above the low half. -/
def Operands.dstAddr (o : Operands) : Nat := (o.dstAddrHi ++ o.dstAddrLo).toNat

/-- How many bytes a command writes at `DST_ADDR` (R74). -/
def destLength : Instr → Nat
  | .sha1Init => 0
  | .sha1Update => 0
  | .sha1Final => 20
  | .sha1Vector => 20
  | .hmacVector => 20
  | .hmac => 20
  | .eapolMic => 16

/-- The destination range of a command, as a list of at most one range (R74). -/
def destination (i : Instr) (o : Operands) : List Range :=
  if destLength i = 0 then [] else [⟨o.dstAddr, destLength i⟩]

/-- The address lies in the range. -/
def inRange (r : Range) (a : Nat) : Bool := r.addr ≤ a && a < r.addr + r.len

/-- The address lies in one of the ranges. -/
def inRanges (rs : List Range) (a : Nat) : Bool := rs.any fun r => inRange r a

/-- The destination of the command in progress (R62, R231); none for an illegal word, which writes nothing. -/
def latchedDestination (s : State) : List Range :=
  match decode s.cmdlat with
  | .ok i => destination i s.ops
  | .error _ => []

/-- The destinations in use while the command in progress runs (R62): its own, and those of commands that have ended
without a host read of BUSY = 0 since. -/
def usedDestinations (s : State) : List Range := latchedDestination s ++ s.sharing.unseen

/-- The commands that act on the visible context (R29, R40). -/
def usesContext : Instr → Bool
  | .sha1Init => true
  | .sha1Update => true
  | .sha1Final => true
  | .sha1Vector => false
  | .hmacVector => false
  | .hmac => false
  | .eapolMic => false

end Sys2Proof.Machine
end

