-- ==== Sys2Proof/Machine/Bus.lean ====
section
/-! DEFINITION. The window on the bus (10_state.md R21, R32), and the accesses of other agents that are still to come while a
command is in use (20_memory.md R62). -/

namespace Sys2Proof.Machine

/-- `BASE` (R9): 256-byte aligned (DEDUCED, log 24). -/
def windowBase (s : State) : Addr := s.platform.basePage ++ 0#8

/-- The offset of a host access that the window answers: none for an access of another width, a misaligned one, or one
outside the window (R32; DEDUCED, log 21). -/
def windowOffset (s : State) (addr : Addr) (width : Nat) : Option Nat :=
  if (windowBase s).toNat ≤ addr.toNat then
    let offset := addr.toNat - (windowBase s).toNat
    if WindowAccess.wf ⟨offset, width⟩ then some offset else none
  else none

/-- The host access is to the register at this offset. -/
def accesses (s : State) (addr : Addr) (width offset : Nat) : Bool := windowOffset s addr width == some offset

/-- The turns of a list up to the host's next read of STATUS (offset 0x04) that returns BUSY = 0. `busy` says whether a
command is in progress when the turns begin: a write of CMD (offset 0x00) starts one, the engine's turn and reset end it, and
a poll ends with such a read. -/
def turnsInUse (s : State) (busy : Bool) : List Turn → List Turn
  | [] => []
  | .read addr width :: rest =>
    if accesses s addr width 0x04 && !busy then [] else .read addr width :: turnsInUse s busy rest
  | .write addr width v :: rest => .write addr width v :: turnsInUse s (busy || accesses s addr width 0x00) rest
  | .poll :: _ => []
  | .engine :: rest => .engine :: turnsInUse s false rest
  | .reset :: rest => .reset :: turnsInUse s false rest
  | .store cached addr v :: rest => .store cached addr v :: turnsInUse s busy rest
  | .load cached addr :: rest => .load cached addr :: turnsInUse s busy rest
  | .clean r :: rest => .clean r :: turnsInUse s busy rest
  | .invalidate r :: rest => .invalidate r :: turnsInUse s busy rest

/-- The address another agent stores to in a turn. -/
def storedAddr : Turn → Option Nat
  | .store _ addr _ => some addr.toNat
  | _ => none

/-- The address another agent loads from in a turn. -/
def loadedAddr : Turn → Option Nat
  | .load _ addr => some addr.toNat
  | _ => none

/-- The addresses at which another agent still breaks a duty of R62 after the engine's step and before the host reads
BUSY = 0, the command being in use until then: those it stores to, and those it loads of a destination in use, of this
command or of an earlier one (DEDUCED, log 11). The turns to come are data, so the engine's step knows them. -/
def upcoming (s : State) : List Nat :=
  (turnsInUse s false s.agenda).filterMap storedAddr ++
    ((turnsInUse s false s.agenda).filterMap loadedAddr).filter (inRanges (usedDestinations s))

end Sys2Proof.Machine
end

