-- ==== Sys2Proof/Machine/Ops.lean ====
section
/-! DEFINITION. The named operations over memory and STATUS: one byte of memory, the bus-master accesses of the engine
(20_memory.md R50 to R62, R66), and a command's acceptance and completion (10_state.md R37, R38). The engine takes no
trap, exception or interrupt (60_exceptions.md R200, R210, R213), so there is no exception entry and no return from one:
a command that fails completes with its result code. -/

namespace Sys2Proof.Machine

/-- What an unlisted address of system memory reads as (DESIGN CHOICE, log 1). -/
def Memory.unlisted : Byte := 0

/-- One byte of memory. -/
def Memory.read : Memory → Nat → Byte
  | [], _ => Memory.unlisted
  | (b, v) :: m, a => if b = a then v else Memory.read m a

/-- The cell of a byte at an address, in the canonical form: no cell for the value an unlisted address reads as. -/
def Memory.cell (a : Nat) (v : Byte) : Memory := if v = Memory.unlisted then [] else [(a, v)]

/-- Writes one byte, keeping the canonical form. -/
def Memory.write : Memory → Nat → Byte → Memory
  | [], a, v => Memory.cell a v
  | (b, w) :: m, a, v =>
    if a < b then Memory.cell a v ++ (b, w) :: m
    else if a = b then Memory.cell a v ++ m
    else (b, w) :: Memory.write m a v

/-- Writes a byte string from an address on (R51). -/
def Memory.writeBytes (m : Memory) (a : Nat) : List Byte → Memory
  | [] => m
  | v :: vs => Memory.writeBytes (Memory.write m a v) (a + 1) vs

/-- Leaves any value in each listed byte, drawn for one use at one draw number. -/
def drawEach (draw : Nat) (use : FreeUse) (m : Memory) (addrs : List Nat) : Memory :=
  addrs.foldl (fun m a => m.write a (Config.freeByte draw use a)) m

/-- The canonical form: addresses strictly rising and below 2^64 (R50), no cell equal to what an unlisted address reads
as. -/
abbrev Memory.wf (m : Memory) : Prop :=
  m.Pairwise (fun c d => c.1 < d.1) ∧ ∀ c ∈ m, c.1 < 2 ^ 64 ∧ c.2 ≠ Memory.unlisted

/-- `MemAdmits(addr, n, kind)` (R51; DEDUCED, log 7). -/
def memAdmits (p : Platform) (kind : AccessKind) (addr n : Nat) : Bool :=
  !p.denied.any fun d => d.kind == kind && (inRange d.starts addr && inRange d.lengths n)

/-- An access of `n` bytes at `addr` reaches device memory (R58, 93 U12; DEDUCED, log 8). -/
def touchesDevice (p : Platform) (addr n : Nat) : Bool :=
  p.devices.any fun d => 0 < d.len && (d.addr < addr + n && addr < d.addr + d.len)

/-- Why an engine access ends the step. -/
inductive Stop where
  /-- BusFault (R207); safe -/
  | fault (f : Fault)
  /-- no meaning (93 U12); safe -/
  | refused (r : Refusal)
deriving DecidableEq, Repr

/-- The outcome of a step that an access stops. -/
def Stop.outcome : Stop → Host.Outcome State Fault Refusal
  | .fault f => .fault f
  | .refused r => .refused r

/-- The check of one engine access: none when it has no bytes (R53); else the range check (R52), `MemAdmits` (R51) and
the refusal of device memory (R58). -/
def checkAccess (s : State) (kind : AccessKind) (addr n : Nat) : Except Stop Unit :=
  if n = 0 then .ok ()
  else if 2 ^ 64 < addr + n then .error (.fault (.busFault addr s.cmdlat))
  else if memAdmits s.platform kind addr n = false then .error (.fault (.busFault addr s.cmdlat))
  else if touchesDevice s.platform addr n = true then .error (.refused (.deviceMemory addr))
  else .ok ()

/-- The byte a command reads at this address is any value: another agent has written it since acceptance, or stores to it
before the host reads BUSY = 0 (R62), or, without coherence, the host's caches hold a store that is not cleaned (R66). Where
the command reads a destination in use, as EAPOL_MIC reads the field it has zeroed, an access of another agent that only
reads the byte races too (R62; DEDUCED, log 10). -/
def readRaces (s : State) (a : Nat) : Bool :=
  s.sharing.writes.contains a || (inRanges (usedDestinations s) a && s.sharing.reads.contains a) ||
    (upcoming s).contains a || (!s.platform.dmaCoherent && s.sharing.dirty.contains a)

/-- The byte the engine's access number `k` of a command reads at an address: any value where it races (DEDUCED, log 10),
else the byte of memory. -/
def engineByte (s : State) (k a : Nat) : Byte :=
  if readRaces s a then Config.freeByte s.draws (.engineRead k) a else s.mem.read a

/-- The bytes the engine's access number `k` of a command reads (R51). -/
def engineBytes (s : State) (k addr n : Nat) : List Byte := (List.range n).map fun i => engineByte s k (addr + i)

/-- `MemRead(addr, n)` (R51), as access number `k` of the command. -/
def memRead (s : State) (k addr n : Nat) : Except Stop (List Byte) :=
  match checkAccess s .read addr n with
  | .ok () => .ok (engineBytes s k addr n)
  | .error e => .error e

/-- The bytes another agent has written or read since the command in progress was accepted (R62). -/
def touched (s : State) : List Nat := s.sharing.writes ++ s.sharing.reads

/-- The byte a command leaves at an address of its destination: any value if another agent has touched it since
acceptance (R62; DEDUCED, log 10), else the byte it writes. The engine's own reads of such a byte are draws of their own
(`readRaces`), so what EAPOL_MIC hashes in its field and what it leaves there are independent. -/
def destByte (s : State) (a : Nat) (v : Byte) : Byte :=
  if (touched s).contains a then Config.freeByte s.draws .engineWrite a else v

/-- The bytes a command leaves from an address on. -/
def destBytes (s : State) (addr : Nat) : List Byte → List Byte
  | [] => []
  | v :: vs => destByte s addr v :: destBytes s (addr + 1) vs

/-- The addresses the host's caches may hold another byte of after a write of `n` bytes that did not go through them: the
engine's, or another agent's (R66; DESIGN CHOICE, log 12). -/
def markStale (s : State) (addr n : Nat) : List Nat :=
  if s.platform.dmaCoherent then s.sharing.stale else (List.range n).map (addr + ·) ++ s.sharing.stale

/-- The state after the engine has written a byte string (R51). -/
def afterWrite (s : State) (addr : Nat) (v : List Byte) : State :=
  { s with
    mem := s.mem.writeBytes addr (destBytes s addr v)
    sharing := { s.sharing with stale := markStale s addr v.length } }

/-- `MemWrite(addr, len(v), v)` (R51). -/
def memWrite (s : State) (addr : Nat) (v : List Byte) : Except Stop State :=
  match checkAccess s .write addr v.length with
  | .ok () => .ok (afterWrite s addr v)
  | .error e => .error e

/-- `FADDR` of descriptor `k` of a table (R55). -/
def fragAddr (table : List Byte) (k : Nat) : Nat := (le64 ((table.drop (16 * k)).take 8)).toNat

/-- `FLEN` of descriptor `k` of a table; bytes 12 to 15 are ignored (R55). -/
def fragLen (table : List Byte) (k : Nat) : Nat := (le32 ((table.drop (16 * k + 8)).take 4)).toNat

/-- Reads the fragments of descriptors `k` to `k + m - 1` of a table, in table order (R56); the fragment of descriptor
`k` is the command's access number `k + 2`. -/
def readFragments (s : State) (table : List Byte) (k : Nat) : Nat → Except Stop (List (List Byte))
  | 0 => .ok []
  | m + 1 =>
    match memRead s (k + 2) (fragAddr table k) (fragLen table k) with
    | .error e => .error e
    | .ok f =>
      match readFragments s table (k + 1) m with
      | .error e => .error e
      | .ok fs => .ok (f :: fs)

/-- `ReadFrags(tab, count)` (R56): the table is the command's access number 1. -/
def readFrags (s : State) (tab count : Nat) : Except Stop (List (List Byte)) :=
  if count = 0 then .ok []
  else
    match memRead s 1 tab (16 * count) with
    | .error e => .error e
    | .ok table => readFragments s table 0 count

/-- Acceptance of a command word (R37). The notes of other agents' accesses start anew for the new command (R62). -/
def accept (v : Word) (s : State) : State :=
  { s with
    cmdlat := v
    status := { s.status with result := .none, busy := true }
    sharing := { s.sharing with writes := [], reads := [] } }

/-- Memory once a command with these destinations has ended: a destination byte that another agent has touched since
acceptance holds any value, whether or not the command wrote it (R62; DEDUCED, log 10). -/
def raceDestinations (dests : List Range) (s : State) : Memory :=
  drawEach s.draws .engineWrite s.mem ((touched s).filter (inRanges dests))

/-- The last effects common to every completion (R36, R38): scratch zero, the result code, BUSY = 0, and any value in the
raced bytes of the destination (R62). The destination stays in use until the host reads BUSY = 0 (R62; DEDUCED, log 11),
and the next command draws anew. -/
def completeWith (dests : List Range) (code : ResultCode) (s : State) : State :=
  { s with
    mem := raceDestinations dests s
    scratch := Scratch.zero
    status := { s.status with result := code, busy := false }
    sharing := { s.sharing with writes := [], reads := [], unseen := dests ++ s.sharing.unseen }
    draws := s.draws + 1 }

/-- `complete(code)` at the end of a command (R12, R38). -/
def complete (i : Instr) (code : ResultCode) (s : State) : State := completeWith (destination i s.ops) code s

/-- A command's final write to its destination, and its completion with OK (R38, R59): one indivisible step. -/
def writeAndComplete (i : Instr) (addr : Nat) (v : List Byte) (s : State) : Host.Outcome State Fault Refusal :=
  match memWrite s addr v with
  | .error e => e.outcome
  | .ok s' => .next (complete i .ok s')

/-- An illegal command word: `complete(ERR_ILLEGAL_CMD)` and no other effect (R204). -/
def completeIllegal (s : State) : State := completeWith [] .errIllegalCmd s

/-- `STATUS.CTX_VALID <- b` (R27). -/
def setCtxValid (b : Bool) (s : State) : State := { s with status := { s.status with ctxValid := b } }

/-- `ctx <- c` (R29). -/
def setCtx (c : Ctx) (s : State) : State := { s with ctx := c }

end Sys2Proof.Machine
end

