-- ==== Sys2Proof/Machine/HmacCommands.lean ====
section
/-! DEFINITION. The HMAC-SHA1 commands (42_hmac_commands.md R156, R157). The key is access number 0 of a command. -/

namespace Sys2Proof.Machine

/-- HMAC_VECTOR (R156): the fragment cap is checked before any memory access (R202). -/
def execHmacVector (s : State) : Host.Outcome State Fault Refusal :=
  if s.ops.srcLen.toNat > 5 then .next (complete .hmacVector .errFragCount s)
  else
    match memRead s 0 s.ops.keyAddr s.ops.keyLen.toNat with
    | .error e => e.outcome
    | .ok key =>
      match readFrags s s.ops.srcAddr s.ops.srcLen.toNat with
      | .error e => e.outcome
      | .ok frags => writeAndComplete .hmacVector s.ops.dstAddr (hmacFn key frags) s

/-- HMAC (R157). -/
def execHmac (s : State) : Host.Outcome State Fault Refusal :=
  match memRead s 0 s.ops.keyAddr s.ops.keyLen.toNat with
  | .error e => e.outcome
  | .ok key =>
    match memRead s 1 s.ops.srcAddr s.ops.srcLen.toNat with
    | .error e => e.outcome
    | .ok data => writeAndComplete .hmac s.ops.dstAddr (hmacFn key [data]) s

end Sys2Proof.Machine
end

