-- ==== Sys2Proof/Machine/MicCommand.lean ====
section
/-! DEFINITION. The EAPOL-Key MIC command (43_mic_command.md R170 to R173). -/

namespace Sys2Proof.Machine

/-- The MIC algorithm of version tag 2 (R170, R172): reads the key and the frame from memory as the zero write has left it,
and writes the first 16 bytes of the HMAC. -/
def hashFrame (s : State) : Host.Outcome State Fault Refusal :=
  match memRead s 0 s.ops.keyAddr s.ops.keyLen.toNat with
  | .error e => e.outcome
  | .ok key =>
    match memRead s 1 s.ops.srcAddr s.ops.srcLen.toNat with
    | .error e => e.outcome
    | .ok frame => writeAndComplete .eapolMic s.ops.dstAddr (micOf key frame) s

/-- EAPOL_MIC (R170): the zero write comes first, on every path (R171); every version but 2 then fails (R173). -/
def execEapolMic (s : State) : Host.Outcome State Fault Refusal :=
  match memWrite s s.ops.dstAddr (zeros 16) with
  | .error e => e.outcome
  | .ok s' => if s'.ops.version = 2 then hashFrame s' else .next (complete .eapolMic .errVersion s')

end Sys2Proof.Machine
end

