-- ==== Sys2Proof/Machine/Sha1Commands.lean ====
section
/-! DEFINITION. The SHA-1 commands (41_sha1_commands.md R130 to R133). Each is one engine step from start to
completion (R41). -/

namespace Sys2Proof.Machine

/-- SHA1_INIT (R130). -/
def execSha1Init (s : State) : Host.Outcome State Fault Refusal :=
  .next (complete .sha1Init .ok (setCtxValid true (setCtx (initCtx s.ctx) s)))

/-- SHA1_UPDATE (R131). -/
def execSha1Update (s : State) : Host.Outcome State Fault Refusal :=
  if s.status.ctxValid then
    match memRead s 1 s.ops.srcAddr s.ops.srcLen.toNat with
    | .error e => e.outcome
    | .ok data => .next (complete .sha1Update .ok (setCtx (absorb s.ctx data) s))
  else .next (complete .sha1Update .errSequence s)

/-- SHA1_FINAL (R132). -/
def execSha1Final (s : State) : Host.Outcome State Fault Refusal :=
  if s.status.ctxValid then
    writeAndComplete .sha1Final s.ops.dstAddr (finish s.ctx).1 (setCtxValid false (setCtx (finish s.ctx).2 s))
  else .next (complete .sha1Final .errSequence s)

/-- SHA1_VECTOR (R133). -/
def execSha1Vector (s : State) : Host.Outcome State Fault Refusal :=
  match readFrags s s.ops.srcAddr s.ops.srcLen.toNat with
  | .error e => e.outcome
  | .ok frags => writeAndComplete .sha1Vector s.ops.dstAddr (sha1 frags) s

end Sys2Proof.Machine
end

