-- ==== Sys2Proof/Machine/Dispatch.lean ====
section
/-! DEFINITION. One arm per command: exec runs a command from start to completion (10_state.md R41). -/

namespace Sys2Proof.Machine

def exec (i : Instr) (s : State) : Host.Outcome State Fault Refusal :=
  match i with
  | .sha1Init => Sys2Proof.Machine.execSha1Init s
  | .sha1Update => Sys2Proof.Machine.execSha1Update s
  | .sha1Final => Sys2Proof.Machine.execSha1Final s
  | .sha1Vector => Sys2Proof.Machine.execSha1Vector s
  | .hmacVector => Sys2Proof.Machine.execHmacVector s
  | .hmac => Sys2Proof.Machine.execHmac s
  | .eapolMic => Sys2Proof.Machine.execEapolMic s

end Sys2Proof.Machine
end

