-- ==== Sys2Proof/Machine/Flags.lean ====
section
/-! DEFINITION. STATUS as the host reads it (10_state.md R25, R28; 60_exceptions.md R201). The engine has no condition
codes or other flags (R44). -/

namespace Sys2Proof.Machine

/-- The 4-bit code of a result (R201). -/
def ResultCode.code : ResultCode → BitVec 4
  | .none => 0
  | .ok => 1
  | .errFragCount => 2
  | .errVersion => 3
  | .errIllegalCmd => 4
  | .errSequence => 5

/-- The STATUS word: BUSY in bit 0, CTX_VALID in bit 1, RESULT in bits 11:8, every other bit 0 (R25). -/
def Status.word (t : Status) : Word :=
  0#20 ++ t.result.code ++ 0#6 ++ BitVec.ofBool t.ctxValid ++ BitVec.ofBool t.busy

end Sys2Proof.Machine
end

