-- ==== Sys2Proof/Machine/Window.lean ====
section
/-! DEFINITION. The register window (10_state.md R21 to R33, R39, R40): the register map, and what a host read and a host
write of a register do. -/

namespace Sys2Proof.Machine

/-- The registers of the window (R21). -/
inductive Reg where
  | cmd
  | status
  | srcAddrLo
  | srcAddrHi
  | srcLen
  | keyAddrLo
  | keyAddrHi
  | keyLen
  | dstAddrLo
  | dstAddrHi
  | version
  | ctxH (k : Fin 5)
  | ctxCountLo
  | ctxCountHi
  | ctxBuf (k : Fin 16)
deriving DecidableEq, Repr

/-- The offset of a register (R21). -/
def regOffset : Reg → Nat
  | .cmd => 0x00
  | .status => 0x04
  | .srcAddrLo => 0x10
  | .srcAddrHi => 0x14
  | .srcLen => 0x18
  | .keyAddrLo => 0x20
  | .keyAddrHi => 0x24
  | .keyLen => 0x28
  | .dstAddrLo => 0x30
  | .dstAddrHi => 0x34
  | .version => 0x38
  | .ctxH k => 0x40 + 4 * k.val
  | .ctxCountLo => 0x54
  | .ctxCountHi => 0x58
  | .ctxBuf k => 0x60 + 4 * k.val

/-- The registers of the visible context (R29 to R31). -/
def ctxRegs : List Reg :=
  [Reg.ctxH 0, Reg.ctxH 1, Reg.ctxH 2, Reg.ctxH 3, Reg.ctxH 4, Reg.ctxCountLo, Reg.ctxCountHi,
    Reg.ctxBuf 0, Reg.ctxBuf 1, Reg.ctxBuf 2, Reg.ctxBuf 3, Reg.ctxBuf 4, Reg.ctxBuf 5, Reg.ctxBuf 6, Reg.ctxBuf 7,
    Reg.ctxBuf 8, Reg.ctxBuf 9, Reg.ctxBuf 10, Reg.ctxBuf 11, Reg.ctxBuf 12, Reg.ctxBuf 13, Reg.ctxBuf 14, Reg.ctxBuf 15]

/-- The operand registers (R22). -/
def operandRegs : List Reg :=
  [Reg.srcAddrLo, Reg.srcAddrHi, Reg.srcLen, Reg.keyAddrLo, Reg.keyAddrHi, Reg.keyLen, Reg.dstAddrLo, Reg.dstAddrHi,
    Reg.version]

/-- Every register of the window. -/
def allRegs : List Reg := [Reg.cmd, Reg.status] ++ operandRegs ++ ctxRegs

/-- The register at an offset; none at a reserved offset (R21, R33). -/
def regAt (offset : Nat) : Option Reg := allRegs.find? fun r => regOffset r == offset

/-- State word `k` of a context (R29). -/
def hashWord (h : HashWords) : Fin 5 → Word
  | 0 => h.h0
  | 1 => h.h1
  | 2 => h.h2
  | 3 => h.h3
  | 4 => h.h4

/-- The value of a register (R22, R24, R25, R29 to R31). CMD holds none and reads 0. -/
def regValue (s : State) : Reg → Word
  | .cmd => 0
  | .status => s.status.word
  | .srcAddrLo => s.ops.srcAddrLo
  | .srcAddrHi => s.ops.srcAddrHi
  | .srcLen => s.ops.srcLen
  | .keyAddrLo => s.ops.keyAddrLo
  | .keyAddrHi => s.ops.keyAddrHi
  | .keyLen => s.ops.keyLen
  | .dstAddrLo => s.ops.dstAddrLo
  | .dstAddrHi => s.ops.dstAddrHi
  | .version => s.ops.version
  | .ctxH k => hashWord s.ctx.h k
  | .ctxCountLo => s.ctx.countLo
  | .ctxCountHi => s.ctx.countHi
  | .ctxBuf k => le32 ((s.ctx.buf.toList.drop (4 * k.val)).take 4)

/-- The registers of the visible context. -/
def isCtxReg : Reg → Bool
  | .ctxH _ => true
  | .ctxCountLo => true
  | .ctxCountHi => true
  | .ctxBuf _ => true
  | _ => false

/-- A command that acts on the visible context is in progress (R40). -/
def contextBusy (s : State) : Bool :=
  s.status.busy && match decode s.cmdlat with
    | .ok i => usesContext i
    | .error _ => false

/-- The host has read STATUS: if BUSY was 0, every completed command is out of use (R62). -/
def observeStatus (s : State) : State :=
  if s.status.busy then s else { s with sharing := { s.sharing with unseen := [] } }

/-- `RD` of a register: the value returned goes to `readData`. A read has no side effect on any register (R33); a `CTX_*`
read while a context command is busy returns any value (R40). -/
def readReg (r : Reg) (s : State) : State :=
  if isCtxReg r && contextBusy s then { s with readData := Config.freeWord s.draws, draws := s.draws + 1 }
  else if r = .status then { observeStatus s with readData := regValue s r }
  else { s with readData := regValue s r }

/-- `RD` of an offset: a reserved offset reads 0 (R33). -/
def readOffset (offset : Nat) (s : State) : State :=
  match regAt offset with
  | some r => readReg r s
  | none => { s with readData := 0 }

/-- `x[r] <- v` for an operand register (R22); a write to a read-only register is ignored (R33); a write to CMD while
idle is accepted (R24, R37). -/
def writeReg (r : Reg) (v : Word) (s : State) : State :=
  match r with
  | .cmd => accept v s
  | .srcAddrLo => { s with ops := { s.ops with srcAddrLo := v } }
  | .srcAddrHi => { s with ops := { s.ops with srcAddrHi := v } }
  | .srcLen => { s with ops := { s.ops with srcLen := v } }
  | .keyAddrLo => { s with ops := { s.ops with keyAddrLo := v } }
  | .keyAddrHi => { s with ops := { s.ops with keyAddrHi := v } }
  | .keyLen => { s with ops := { s.ops with keyLen := v } }
  | .dstAddrLo => { s with ops := { s.ops with dstAddrLo := v } }
  | .dstAddrHi => { s with ops := { s.ops with dstAddrHi := v } }
  | .version => { s with ops := { s.ops with version := v } }
  | .status => s
  | .ctxH _ => s
  | .ctxCountLo => s
  | .ctxCountHi => s
  | .ctxBuf _ => s

/-- `WR` of an offset: ignored while BUSY = 1 (R39) and at a reserved offset (R33). -/
def writeOffset (offset : Nat) (v : Word) (s : State) : State :=
  if s.status.busy then s
  else
    match regAt offset with
    | some r => writeReg r v s
    | none => s

end Sys2Proof.Machine
end

