-- ==== Sys2Proof/Machine/Agents.lean ====
section
/-! DEFINITION. What one turn of an agent does (10_state.md R20): the host's accesses to the window, the engine's step
(R41), the reset input (70_reset_and_hazards.md R230, R231), and the accesses of other agents to system memory
(20_memory.md R60 to R62, R66). -/

namespace Sys2Proof.Machine

/-- The engine's step (R41): while BUSY = 1 it runs the latched command from start to completion, an illegal word
completing with ERR_ILLEGAL_CMD (R204); while idle it takes no step (R219). One atomic step (DEDUCED, log 15). -/
def engineTurn (s : State) : Host.Outcome State Fault Refusal :=
  if s.status.busy then
    match decode s.cmdlat with
    | .ok i => exec i s
    | .error _ => .next (completeIllegal s)
  else .next s

/-- The destinations in use (R62): of the command in progress, and of completed commands whose completion the host has
not yet read. -/
def destinationsInUse (s : State) : List Range :=
  if s.status.busy then usedDestinations s else s.sharing.unseen

/-- Leaves any value in each of `n` bytes from an address on. -/
def drawBytes (draw : Nat) (use : FreeUse) (m : Memory) (addr n : Nat) : Memory :=
  m.writeBytes addr ((List.range n).map fun i => Config.freeByte draw use (addr + i))

/-- The destination bytes of a command aborted by reset (R231): each byte of the range that is a byte of system memory
(R50) holds any value (DEDUCED, log 13). -/
def abortRange (s : State) (r : Range) : State :=
  let n := min r.len (2 ^ 64 - r.addr)
  { s with
    mem := drawBytes s.draws .abortedDestination s.mem r.addr n
    sharing := { s.sharing with stale := markStale s r.addr n } }

/-- Every piece of engine state at its reset value (R45, R230); system memory, the platform, the host's caches and the
destinations whose completion the host has not read (R62) stay. -/
def resetEngine (s : State) : State :=
  { s with
    ops := Operands.zero
    status := Status.reset
    ctx := Ctx.zero
    cmdlat := 0
    scratch := Scratch.zero
    sharing := { s.sharing with writes := [], reads := [] } }

/-- The command in progress is aborted (R231): its destination holds any value, and stays in use until the host reads
BUSY = 0 (R62). -/
def abortCommand (s : State) : State :=
  let t := (latchedDestination s).foldl abortRange s
  { t with
    sharing := { t.sharing with unseen := latchedDestination s ++ t.sharing.unseen }
    draws := s.draws + 1 }

/-- The reset input (R230); while busy it aborts the command in progress (R231). -/
def resetTurn (s : State) : State :=
  if s.status.busy then resetEngine (abortCommand s) else resetEngine s

/-- Notes writes of other agents while a command is in progress (R62). -/
def noteWrites (s : State) (addrs : List Nat) : List Nat :=
  if s.status.busy then addrs ++ s.sharing.writes else s.sharing.writes

/-- Notes another agent's read while a command is in progress (R62). -/
def noteRead (s : State) (a : Nat) : List Nat := if s.status.busy then a :: s.sharing.reads else s.sharing.reads

/-- Another agent stores one byte. A byte of a completed destination still in use holds any value afterwards (R62). A
store through the caches of a host that is not coherent stays to be cleaned (R66; log 12, 23). After one not through them, by
the host or by another bus master, the caches may hold another byte: R66 gives no result for a later load through them, nor
for a clean of a byte they held uncleaned, and the model gives any value to both (DESIGN CHOICE, log 12). -/
def agentStore (cached : Bool) (a : Nat) (v : Byte) (s : State) : State :=
  let raced := inRanges s.sharing.unseen a
  let held := cached && !s.platform.dmaCoherent
  { s with
    mem := s.mem.write a (if raced then Config.freeByte s.draws .racedDestination a else v)
    sharing := { s.sharing with
      writes := noteWrites s [a]
      dirty := if held then a :: s.sharing.dirty else s.sharing.dirty
      stale := if held then s.sharing.stale.filter (· ≠ a) else markStale s a 1 }
    draws := if raced then s.draws + 1 else s.draws }

/-- Another agent loads one byte. From a destination in use it gets any value (R62), and a completed one holds any value
afterwards; through caches that may hold another byte it gets any value (R66). Not through them it gets the byte of
memory, also where they hold an uncleaned store of it (DESIGN CHOICE, log 12). -/
def agentLoad (cached : Bool) (a : Nat) (s : State) : State :=
  let free := inRanges (destinationsInUse s) a || (cached && !s.platform.dmaCoherent && s.sharing.stale.contains a)
  let raced := inRanges s.sharing.unseen a
  { s with
    mem := if raced then s.mem.write a (Config.freeByte s.draws .racedDestination a) else s.mem
    sharing := { s.sharing with reads := noteRead s a }
    readData := (if free then Config.freeByte s.draws .agentLoad a else s.mem.read a).setWidth 32
    draws := if free then s.draws + 1 else s.draws }

/-- The bytes of a range that the host has stored through its caches and not cleaned (R66). -/
def dirtyIn (s : State) (r : Range) : List Nat := s.sharing.dirty.filter (inRange r)

/-- The host cleans its caches over a range (R66). Memory holds any value in a cleaned byte that has been written since the
host stored it, by the engine or by a store not through the caches (DESIGN CHOICE, log 12), or that lies in a destination in use (R62). R66 asks for the clean before the CMD write: while a
command is in progress a cleaned byte counts as written by another agent (R62), and the engine reads any value there
(DESIGN CHOICE, log 12). -/
def cacheClean (r : Range) (s : State) : State :=
  { s with
    mem := drawEach s.draws .cacheOperation s.mem
      ((dirtyIn s r).filter fun a => s.sharing.stale.contains a || inRanges s.sharing.unseen a)
    sharing := { s.sharing with
      writes := noteWrites s (dirtyIn s r)
      dirty := s.sharing.dirty.filter fun a => !inRange r a }
    draws := s.draws + 1 }

/-- The host invalidates its caches over a range (R66). A store it has not cleaned is lost: memory holds any value there,
unless the byte has been written since, not through the caches, and while a command is in progress the engine reads any value there. R66 asks
for the invalidation of a destination after BUSY = 0 is read: before that read it leaves the destinations in use stale, so a
cached load still gets any value (DESIGN CHOICE, log 12). -/
def cacheInvalidate (r : Range) (s : State) : State :=
  { s with
    mem := drawEach s.draws .cacheOperation s.mem ((dirtyIn s r).filter fun a => !s.sharing.stale.contains a)
    sharing := { s.sharing with
      writes := noteWrites s (dirtyIn s r)
      dirty := s.sharing.dirty.filter fun a => !inRange r a
      stale := s.sharing.stale.filter fun a => !inRange r a || inRanges (destinationsInUse s) a }
    draws := s.draws + 1 }

/-- One turn of `POLL` (R78): `RD STATUS`; while it returns BUSY = 1 the engine takes its turn and the host polls again
(weak fairness, R243; DESIGN CHOICE, log 3). -/
def pollTurn (s : State) : State :=
  if s.status.busy then { readReg .status s with agenda := .engine :: .poll :: s.agenda } else readReg .status s

/-- One turn of an agent, already taken off the agenda. -/
def takeTurn (t : Turn) (s : State) : Host.Outcome State Fault Refusal :=
  match t with
  | .write addr width v =>
    match windowOffset s addr width with
    | some offset => .next (writeOffset offset v s)
    | none => .refused (.windowAccess addr.toNat width)
  | .read addr width =>
    match windowOffset s addr width with
    | some offset => .next (readOffset offset s)
    | none => .refused (.windowAccess addr.toNat width)
  | .poll => .next (pollTurn s)
  | .engine => engineTurn s
  | .reset => .next (resetTurn s)
  | .store cached addr v => .next (agentStore cached addr.toNat v s)
  | .load cached addr => .next (agentLoad cached addr.toNat s)
  | .clean r => .next (cacheClean r s)
  | .invalidate r => .next (cacheInvalidate r s)

/-- The machine's step: the next turn of the agenda; with no turn waiting, the engine's (R41, R243). -/
def nextTurn (s : State) : Host.Outcome State Fault Refusal :=
  match s.agenda with
  | [] => engineTurn s
  | t :: rest => takeTurn t { s with agenda := rest }

/-- The command word `v` as the command in progress, the engine's turn next. -/
def placeCommand (v : Word) (s : State) : State := { accept v s with agenda := .engine :: s.agenda }

/-- The bus address of a register (R21). -/
def regAddr (s : State) (r : Reg) : Addr := windowBase s + BitVec.ofNat 64 (regOffset r)

/-- `WR <reg>, <value>` (R78). -/
def wr (s : State) (r : Reg) (v : Word) : Turn := .write (regAddr s r) 4 v

/-- `RD <reg>` (R78). -/
def rd (s : State) (r : Reg) : Turn := .read (regAddr s r) 4

/-- `SET64` of an address operand by its two registers (R79). -/
def set64 (s : State) (lo hi : Reg) (v : Addr) : List Turn :=
  [wr s lo (v.extractLsb' 0 32), wr s hi (v.extractLsb' 32 32)]

/-- `RUN <mnemonic>` (R79). -/
def runCommand (s : State) (i : Instr) : List Turn := [wr s .cmd (encode i), .poll]

end Sys2Proof.Machine
end

