-- ==== Sys2Proof/Machine/Step.lean ====
section
/-! DEFINITION. The machine's step, and the state in which the next step runs a given command. -/

namespace Sys2Proof.Machine

/-- One step: one turn of one agent (R20). -/
def step (s : State) : Host.Outcome State Fault Refusal := nextTurn s

/-- `s` with the command whose bits are `w` latched as an accepted command (R37) and the engine's turn next, so that the
next step runs exactly it: the engine fetches no instruction (R43), and the accepted command word in `CMDLAT` is what its
step runs (R41). DESIGN CHOICE, log 5. -/
def State.withFetchWord (s : State) (nbits w : Nat) : State := placeCommand (BitVec.ofNat 32 (w % 2 ^ nbits)) s

end Sys2Proof.Machine
end

