-- ==== Sys2Proof/Safety.lean ====
section
/-! DEFINITION. What the claims call a safe state: the invariants the spec states of the engine (10_state.md R36, R46, R47;
60_exceptions.md R201; 70_reset_and_hazards.md R241) and the canonical form of memory. -/

namespace Sys2Proof.Machine

/-- R36: every scratch item is zero while idle. In this model a command is one step, so scratch is zero between all
steps. -/
abbrev State.ScratchZero (s : State) : Prop := s.scratch = Scratch.zero

/-- R37, R40: RESULT is NONE while a command is in progress. -/
abbrev State.BusyHasNoResult (s : State) : Prop := s.status.busy = true → s.status.result = .none

/-- R27, R241: outside SHA1_INIT .. SHA1_FINAL the visible context holds nothing. -/
abbrev State.InvalidCtxZero (s : State) : Prop := s.status.ctxValid = false → s.ctx = Ctx.zero

/-- R46: the bit count is a multiple of 8. -/
abbrev State.CountWholeBytes (s : State) : Prop := s.ctx.count.extractLsb' 0 3 = 0

/-- Accesses of other agents are noted only while a command is in progress (R62). -/
abbrev State.IdleHasNoNotes (s : State) : Prop :=
  s.status.busy = false → s.sharing.writes = [] ∧ s.sharing.reads = []

/-- The bytes waiting in the host's caches, and the bytes noted of other agents' accesses, are bytes of system memory
(R50, R62, R66). -/
abbrev State.NotesInMemory (s : State) : Prop := (∀ a ∈ s.sharing.dirty, a < 2 ^ 64) ∧ ∀ a ∈ touched s, a < 2 ^ 64

/-- The invariant of the machine. -/
abbrev State.Inv (s : State) : Prop :=
  s.mem.wf ∧ s.ScratchZero ∧ s.BusyHasNoResult ∧ s.InvalidCtxZero ∧ s.CountWholeBytes ∧ s.IdleHasNoNotes ∧
    s.NotesInMemory

/-- No other agent breaks a duty of R62 or R66 that the command in progress could see: none has touched a byte since
acceptance, none stores a byte or loads one of a destination in use before the host reads BUSY = 0, and the host's caches hold nothing to clean unless accesses
are coherent. -/
abbrev State.DutiesKept (s : State) : Prop :=
  s.sharing.writes = [] ∧ s.sharing.reads = [] ∧ upcoming s = [] ∧
    (s.platform.dmaCoherent = true ∨ s.sharing.dirty = [])

/-- The engine access passes its check: no byte, or inside the address space, admitted by `MemAdmits` and ordinary memory
(R51 to R53, R58). -/
abbrev Admitted (s : State) (k : AccessKind) (addr n : Nat) : Prop := checkAccess s k addr n = .ok ()

/-- The engine access is refused: it has bytes, and its range wraps or `MemAdmits` refuses it (R51, R52). -/
abbrev Refused (s : State) (k : AccessKind) (addr n : Nat) : Prop :=
  n ≠ 0 ∧ (2 ^ 64 < addr + n ∨ memAdmits s.platform k addr n = false)

/-- The bytes of a fragment table of `count` descriptors at `tab`, as the engine reads them (R55, R56). -/
def tableBytes (s : State) (tab count : Nat) : List Byte := engineBytes s 1 tab (16 * count)

/-- Every access of `ReadFrags(tab, count)` passes its check (R56). -/
abbrev FragsAdmitted (s : State) (tab count : Nat) : Prop :=
  Admitted s .read tab (16 * count) ∧
    ∀ k < count, Admitted s .read (fragAddr (tableBytes s tab count) k) (fragLen (tableBytes s tab count) k)

/-- The fragments a table of `count` descriptors at `tab` names, in table order (R56). -/
def fragBytes (s : State) (tab count : Nat) : List (List Byte) :=
  (List.range count).map fun k =>
    engineBytes s (k + 2) (fragAddr (tableBytes s tab count) k) (fragLen (tableBytes s tab count) k)

/-- Fragment `k` of a table of `count` descriptors at `tab` is the first that is refused (R56, R208). -/
abbrev FirstRefusedFragment (s : State) (tab count k : Nat) : Prop :=
  k < count ∧ Admitted s .read tab (16 * count) ∧
    (∀ j < k, Admitted s .read (fragAddr (tableBytes s tab count) j) (fragLen (tableBytes s tab count) j)) ∧
    Refused s .read (fragAddr (tableBytes s tab count) k) (fragLen (tableBytes s tab count) k)

/-- One access of the engine to system memory. -/
structure EngineAccess where
  kind : AccessKind
  addr : Nat
  len : Nat
deriving DecidableEq, Repr

/-- The read of fragment `k` of the table at `SRC_ADDR` (R56). -/
def fragmentRead (s : State) (k : Nat) : EngineAccess :=
  ⟨.read, fragAddr (tableBytes s s.ops.srcAddr s.ops.srcLen.toNat) k,
    fragLen (tableBytes s s.ops.srcAddr s.ops.srcLen.toNat) k⟩

/-- The reads of `ReadFrags(SRC_ADDR, SRC_LEN)`, in their order: the table, then each fragment (R56). -/
def fragmentReads (s : State) : List EngineAccess :=
  ⟨.read, s.ops.srcAddr, 16 * s.ops.srcLen.toNat⟩ :: (List.range s.ops.srcLen.toNat).map (fragmentRead s)

/-- The accesses a command makes when none is refused, in the order its rule lists them (R59; R131 to R133, R156, R157, R170):
none where the command fails a check that comes before them (R208). -/
def commandAccesses (i : Instr) (s : State) : List EngineAccess :=
  let key : EngineAccess := ⟨.read, s.ops.keyAddr, s.ops.keyLen.toNat⟩
  let src : EngineAccess := ⟨.read, s.ops.srcAddr, s.ops.srcLen.toNat⟩
  let dst : EngineAccess := ⟨.write, s.ops.dstAddr, destLength i⟩
  match i with
  | .sha1Init => []
  | .sha1Update => if s.status.ctxValid then [src] else []
  | .sha1Final => if s.status.ctxValid then [dst] else []
  | .sha1Vector => fragmentReads s ++ [dst]
  | .hmacVector => if 5 < s.ops.srcLen.toNat then [] else key :: fragmentReads s ++ [dst]
  | .hmac => [key, src, dst]
  | .eapolMic => if s.ops.version = 2 then [dst, key, src, dst] else [dst]

/-- The access is one the command makes, and every access before it passes its check (R208). -/
abbrev Reaches (i : Instr) (s : State) (x : EngineAccess) : Prop :=
  ∃ before after, commandAccesses i s = before ++ x :: after ∧ ∀ y ∈ before, Admitted s y.kind y.addr y.len

/-- The command ends in BusFault at this address (R207). -/
abbrev FaultsAt (i : Instr) (s : State) (addr : Nat) : Prop := exec i s = .fault (.busFault addr s.cmdlat)

/-- What no command changes: the operand registers (R22), the latch, the platform, and the outside world's turns and
readings. -/
abbrev CommandFrame (s t : State) : Prop :=
  t.ops = s.ops ∧ t.cmdlat = s.cmdlat ∧ t.platform = s.platform ∧ t.agenda = s.agenda ∧ t.readData = s.readData

/-- A command has completed (R38): BUSY = 0, RESULT is the code, scratch is zero (R36). -/
abbrev CompletedWith (code : ResultCode) (t : State) : Prop :=
  t.status.busy = false ∧ t.status.result = code ∧ t.scratch = Scratch.zero

/-- An illegal command word has completed (R204): its result code, and no other register and no byte of memory changed. -/
abbrev CompletedIllegal (s t : State) : Prop :=
  CompletedWith .errIllegalCmd t ∧ t.status.ctxValid = s.status.ctxValid ∧ t.mem = s.mem ∧ t.ctx = s.ctx ∧
    CommandFrame s t

/-- The address is one of the bytes the command stores to: `destLength i` bytes from `DST_ADDR` (R74). -/
abbrev InDestination (i : Instr) (s : State) (a : Nat) : Prop :=
  s.ops.dstAddr ≤ a ∧ a < s.ops.dstAddr + destLength i

/-- Another agent has touched this byte of the command's destination since acceptance (R62). -/
abbrev Raced (i : Instr) (s : State) (a : Nat) : Prop := InDestination i s a ∧ a ∈ touched s

/-- A command that writes no memory: every byte is as before but the raced ones of its destination (R62), and with none
touched all of memory is. -/
abbrev MemoryKept (i : Instr) (s t : State) : Prop :=
  (∀ a, ¬ Raced i s a → t.mem.read a = s.mem.read a) ∧ (touched s = [] → t.mem = s.mem)

/-- The address is in a destination in use (R62): of the command in progress, or of a completed one whose completion the host
has not read. -/
abbrev DestinationInUse (s : State) (a : Nat) : Prop :=
  (s.status.busy = true ∧ ∃ i, decode s.cmdlat = .ok i ∧ InDestination i s a) ∨ inRanges s.sharing.unseen a = true

/-- Among these turns there is no poll and no host read of STATUS (offset 0x04): what comes after them comes before any read
of BUSY = 0 (R62). -/
abbrev NoIdleRead (s : State) (turns : List Turn) : Prop :=
  ∀ x ∈ turns, x ≠ .poll ∧ ∀ addr w, x = .read addr w → windowOffset s addr w ≠ some 0x04

/-- Every byte of memory but those of a range is as before. -/
abbrev MemorySameOutside (addr n : Nat) (s t : State) : Prop :=
  ∀ a, ¬ (addr ≤ a ∧ a < addr + n) → t.mem.read a = s.mem.read a

/-- Memory holds a byte string from an address on. -/
abbrev MemoryHolds (t : State) (addr : Nat) (v : List Byte) : Prop :=
  ∀ k < v.length, t.mem.read (addr + k) = v.getD k 0

end Sys2Proof.Machine
end

