-- ==== Sys2Proof/Certificates/Slice0/Obligations.lean ====
section
/-! DEFINITION. The statements about the engine, from the numbered rules of the spec; each docstring names its rules. -/

open Sys2Proof Sys2Proof.Machine

/-! ### Command words (30_encoding.md) -/

/-- R73: a word selects a command only when it equals the command's full 32-bit word of the opcode map. -/
def Obligations.DecodeMatchesFullWord : Prop :=
  (∀ (v : Word) (i : Instr), decode v = .ok i ↔ v = encode i) ∧
    encode .sha1Init = 0x00000001#32 ∧ encode .sha1Update = 0x00000002#32 ∧ encode .sha1Final = 0x00000003#32 ∧
    encode .sha1Vector = 0x00000004#32 ∧ encode .hmacVector = 0x00000005#32 ∧ encode .hmac = 0x00000006#32 ∧
    encode .eapolMic = 0x00000007#32

/-- R72, R76: which words are illegal, and under which name each is rejected. -/
def Obligations.IllegalWordsExactly : Prop :=
  ∀ v : Word,
    (decode v = .error .reservedBits ↔ v.extractLsb' 8 24 ≠ 0) ∧
      (decode v = .error .illegalOpcode ↔
        v.extractLsb' 8 24 = 0 ∧ ((v.extractLsb' 0 8).toNat = 0 ∨ 8 ≤ (v.extractLsb' 0 8).toNat))

/-- R72, R73, R76: ten words: the seven commands, and three illegal words under the model's two names for them (DESIGN
CHOICE, log 22). -/
def Obligations.OpcodeMapWords : Prop :=
  decode 0x00000001#32 = .ok .sha1Init ∧ decode 0x00000002#32 = .ok .sha1Update ∧
    decode 0x00000003#32 = .ok .sha1Final ∧ decode 0x00000004#32 = .ok .sha1Vector ∧
    decode 0x00000005#32 = .ok .hmacVector ∧ decode 0x00000006#32 = .ok .hmac ∧
    decode 0x00000007#32 = .ok .eapolMic ∧ decode 0x00000000#32 = .error .illegalOpcode ∧
    decode 0x00000008#32 = .error .illegalOpcode ∧ decode 0x00000101#32 = .error .reservedBits

/-- R76, R204: an accepted illegal word completes with ERR_ILLEGAL_CMD and has no other effect: at the engine's step, whether
no turn is waiting or the engine's is next; and under a poll, which leaves the engine a turn and then reads BUSY = 0 (R38, R78,
R243; the agenda of turns and the turn a poll leaves are the model's, DESIGN CHOICE, log 3). -/
def Obligations.IllegalWordCompletes : Prop :=
  ∀ (s : State) (rest : List Turn), s.status.busy = true →
    (s.cmdlat.extractLsb' 8 24 ≠ 0 ∨ (s.cmdlat.extractLsb' 0 8).toNat = 0 ∨ 8 ≤ (s.cmdlat.extractLsb' 0 8).toNat) →
    (s.agenda = [] → ∃ t, step s = .next t ∧ CompletedIllegal s t) ∧
    (s.agenda = .engine :: rest → ∃ t, step s = .next t ∧ CompletedIllegal { s with agenda := rest } t) ∧
    (s.agenda = .poll :: rest → ∃ t, core.run 3 s = .next t ∧ t.readData = t.status.word ∧
      CompletedIllegal { s with agenda := rest, readData := t.status.word } t)

/-! ### The step and its agents (10_state.md) -/

/-- R41: while BUSY = 1 the step runs the latched command: at once when no agent has a turn waiting, and when the next
turn is the engine's (which it then takes off the agenda). -/
def Obligations.StepRunsLatchedCommand : Prop :=
  ∀ (s : State) (i : Instr), s.status.busy = true → decode s.cmdlat = .ok i →
    (s.agenda = [] → step s = exec i s) ∧
      ∀ rest, s.agenda = .engine :: rest → step s = exec i { s with agenda := rest }

/-- R37, R41: the step after a command word is placed runs exactly that command, accepted. -/
def Obligations.PlacedCommandRunsNext : Prop :=
  ∀ (s : State) (i : Instr), step (s.withFetchWord 32 (encode i).toNat) = exec i (accept (encode i) s)

/-- R219: while BUSY = 0 the engine takes no step; with no turn of another agent waiting nothing changes. -/
def Obligations.IdleEngineTakesNoStep : Prop :=
  ∀ s : State, s.status.busy = false →
    (s.agenda = [] → step s = .next s) ∧
      ∀ rest, s.agenda = .engine :: rest → step s = .next { s with agenda := rest }

/-- R37: a host write of any word to CMD while BUSY = 0 is accepted in one step; no host write then changes an operand
register, or anything else, while the command is in progress. -/
def Obligations.CmdWriteAccepted : Prop :=
  ∀ (s : State) (v : Word) (rest : List Turn), s.status.busy = false → s.agenda = wr s .cmd v :: rest →
    ∃ t, step s = .next t ∧ t.cmdlat = v ∧ t.status.result = .none ∧ t.status.busy = true ∧
      t.status.ctxValid = s.status.ctxValid ∧ t.ops = s.ops ∧ t.ctx = s.ctx ∧ t.mem = s.mem ∧
      t.scratch = s.scratch ∧ t.agenda = rest ∧
      ∀ (r : Reg) (w : Word), step { t with agenda := [wr t r w] } = .next { t with agenda := [] }

/-- R39: while BUSY = 1 every host write to the window is ignored: it changes no state and queues no command. -/
def Obligations.WritesIgnoredWhileBusy : Prop :=
  ∀ (s : State) (addr : Addr) (width : Nat) (v : Word) (rest : List Turn), s.status.busy = true →
    s.agenda = .write addr width v :: rest → (windowOffset s addr width).isSome →
    step s = .next { s with agenda := rest }

/-- R22: a write of an operand register while idle stores its value unchanged, a read then returns it, and no other
register and no byte of memory changes; and no command writes an operand register. -/
def Obligations.OperandWriteStored : Prop :=
  (∀ (s : State) (r : Reg) (v : Word) (rest : List Turn), s.status.busy = false → r ∈ operandRegs →
    s.agenda = wr s r v :: rest →
    ∃ t, step s = .next t ∧ regValue t r = v ∧ (∀ q, q ≠ r → regValue t q = regValue s q) ∧ t.mem = s.mem ∧
      t.status = s.status ∧ t.ctx = s.ctx ∧ t.cmdlat = s.cmdlat ∧ t.agenda = rest ∧
      ∃ u, step { t with agenda := [rd t r] } = .next u ∧ u.readData = v) ∧
  ∀ (i : Instr) (s t : State), exec i s = .next t → ∀ r ∈ operandRegs, regValue t r = regValue s r

/-- R33: a read of a reserved offset returns 0 and a write to one is ignored; a write to a read-only register is ignored;
no host read changes a register. -/
def Obligations.ReservedAndReadOnlyAccesses : Prop :=
  ∀ (s : State) (addr : Addr) (v : Word) (offset : Nat) (rest : List Turn), windowOffset s addr 4 = some offset →
    (s.agenda = .write addr 4 v :: rest →
      (regAt offset = none ∨ regAt offset = some .status ∨ ∃ r ∈ ctxRegs, regAt offset = some r) →
      step s = .next { s with agenda := rest }) ∧
    (s.agenda = .read addr 4 :: rest →
      ∃ t, step s = .next t ∧ (regAt offset = none → t.readData = 0) ∧ (∀ r, regValue t r = regValue s r) ∧
        t.mem = s.mem ∧ t.cmdlat = s.cmdlat ∧ t.scratch = s.scratch)

/-- R21: the register at every offset, row by row, and the reserved offsets. -/
def Obligations.RegisterMap : Prop :=
  regAt 0x00 = some .cmd ∧ regAt 0x04 = some .status ∧ regAt 0x10 = some .srcAddrLo ∧ regAt 0x14 = some .srcAddrHi ∧
    regAt 0x18 = some .srcLen ∧ regAt 0x20 = some .keyAddrLo ∧ regAt 0x24 = some .keyAddrHi ∧
    regAt 0x28 = some .keyLen ∧ regAt 0x30 = some .dstAddrLo ∧ regAt 0x34 = some .dstAddrHi ∧
    regAt 0x38 = some .version ∧ regAt 0x40 = some (.ctxH 0) ∧ regAt 0x44 = some (.ctxH 1) ∧
    regAt 0x48 = some (.ctxH 2) ∧ regAt 0x4C = some (.ctxH 3) ∧ regAt 0x50 = some (.ctxH 4) ∧
    regAt 0x54 = some .ctxCountLo ∧ regAt 0x58 = some .ctxCountHi ∧
    (∀ k : Fin 16, regAt (0x60 + 4 * k.val) = some (.ctxBuf k)) ∧
    (∀ k < 64, regAt (4 * k) = none ↔ 4 * k ∈ [0x08, 0x0C, 0x1C, 0x2C, 0x3C, 0x5C] ∨ 0xA0 ≤ 4 * k) ∧
    ∀ r : Reg, regAt (regOffset r) = some r

/-- R32: from BASE on, the window answers exactly the naturally aligned 32-bit accesses at offsets 0x00 to 0xFC; any other
access there is refused. -/
def Obligations.OtherWindowAccessRefused : Prop :=
  ∀ (s : State) (addr : Addr) (width : Nat) (v : Word) (rest : List Turn), (windowBase s).toNat ≤ addr.toNat →
    ((windowOffset s addr width).isSome ↔
      width = 4 ∧ addr.toNat ≤ (windowBase s).toNat + 0xFC ∧ addr.toNat % 4 = 0) ∧
    (¬ (width = 4 ∧ addr.toNat ≤ (windowBase s).toNat + 0xFC ∧ addr.toNat % 4 = 0) →
      (s.agenda = .write addr width v :: rest → step s = .refused (.windowAccess addr.toNat width)) ∧
      (s.agenda = .read addr width :: rest → step s = .refused (.windowAccess addr.toNat width)))

/-- R40: what host reads return while BUSY = 1. STATUS returns BUSY = 1 and RESULT = NONE, the operand registers their
values, CMD and the reserved offsets 0. A `CTX_*` register returns a fresh draw while SHA1_INIT, SHA1_UPDATE or SHA1_FINAL
is in progress, else its value. -/
def Obligations.ReadsWhileBusy : Prop :=
  ∀ (s : State) (addr : Addr) (offset : Nat) (rest : List Turn), s.status.busy = true → s.BusyHasNoResult →
    windowOffset s addr 4 = some offset → s.agenda = .read addr 4 :: rest →
    ∃ t, step s = .next t ∧
      (regAt offset = some .status → t.readData.getLsbD 0 = true ∧ t.readData.extractLsb' 8 4 = 0) ∧
      (∀ r ∈ operandRegs, regAt offset = some r → t.readData = regValue s r) ∧
      (regAt offset = some .cmd ∨ regAt offset = none → t.readData = 0) ∧
      ∀ r ∈ ctxRegs, regAt offset = some r →
        if s.cmdlat ∈ [0x00000001#32, 0x00000002#32, 0x00000003#32] then
          t.readData = Config.freeWord s.draws ∧ t.draws = s.draws + 1
        else t.readData = regValue s r

/-- R24, R25, R29, R30, R33, R40: a read of a register returns its value at any time, but for a `CTX_*` register while
SHA1_INIT, SHA1_UPDATE or SHA1_FINAL is in progress, and changes no register; and what the value is: 0 for CMD, the STATUS
word, the operand registers' contents, the state words for CTX_H0 to CTX_H4, and the two halves of the bit count. -/
def Obligations.ReadReturnsRegister : Prop :=
  (∀ (s : State) (r : Reg) (rest : List Turn),
    ¬ (r ∈ ctxRegs ∧ s.status.busy = true ∧ s.cmdlat ∈ [0x00000001#32, 0x00000002#32, 0x00000003#32]) →
    s.agenda = rd s r :: rest →
    ∃ t, step s = .next t ∧ t.readData = regValue s r ∧ (∀ q, regValue t q = regValue s q) ∧
      t.cmdlat = s.cmdlat ∧ t.mem = s.mem ∧ t.draws = s.draws ∧ t.agenda = rest) ∧
  ∀ s : State,
    regValue s .cmd = 0 ∧ regValue s .status = s.status.word ∧ regValue s .srcAddrLo = s.ops.srcAddrLo ∧
    regValue s .srcAddrHi = s.ops.srcAddrHi ∧ regValue s .srcLen = s.ops.srcLen ∧
    regValue s .keyAddrLo = s.ops.keyAddrLo ∧ regValue s .keyAddrHi = s.ops.keyAddrHi ∧
    regValue s .keyLen = s.ops.keyLen ∧ regValue s .dstAddrLo = s.ops.dstAddrLo ∧
    regValue s .dstAddrHi = s.ops.dstAddrHi ∧ regValue s .version = s.ops.version ∧
    regValue s (.ctxH 0) = s.ctx.h.h0 ∧ regValue s (.ctxH 1) = s.ctx.h.h1 ∧ regValue s (.ctxH 2) = s.ctx.h.h2 ∧
    regValue s (.ctxH 3) = s.ctx.h.h3 ∧ regValue s (.ctxH 4) = s.ctx.h.h4 ∧
    s.ctx.count.toNat = (regValue s .ctxCountHi).toNat * 2 ^ 32 + (regValue s .ctxCountLo).toNat

/-- R25, R28, R201: the fields of STATUS as the host reads it, its reserved bits, and the number of every result code; there
is no code above 5 (DEDUCED, log 16). -/
def Obligations.StatusWordFields : Prop :=
  (∀ t : Status,
    t.word.getLsbD 0 = t.busy ∧ t.word.getLsbD 1 = t.ctxValid ∧ t.word.extractLsb' 8 4 = t.result.code ∧
      t.word.extractLsb' 2 6 = 0 ∧ t.word.extractLsb' 12 20 = 0) ∧
    (∀ r : ResultCode, r.code.toNat ≤ 5) ∧ ResultCode.none.code = 0 ∧ ResultCode.ok.code = 1 ∧ ResultCode.errFragCount.code = 2 ∧
    ResultCode.errVersion.code = 3 ∧ ResultCode.errIllegalCmd.code = 4 ∧ ResultCode.errSequence.code = 5

/-- R31: `CTX_BUFk` packs four buffer bytes, byte `4k + j` in bits `8j + 7` to `8j`. -/
def Obligations.CtxBufLittleEndian : Prop :=
  ∀ (s : State) (k : Fin 16) (j : Fin 4),
    (regValue s (.ctxBuf k)).extractLsb' (8 * j.val) 8 = s.ctx.buf.toList.getD (4 * k.val + j.val) 0

/-- R23: a 64-bit address operand is assembled from its two halves, the high half times 2^32 plus the low half. -/
def Obligations.AddressFromHalves : Prop :=
  ∀ o : Operands,
    o.srcAddr = o.srcAddrHi.toNat * 2 ^ 32 + o.srcAddrLo.toNat ∧
      o.keyAddr = o.keyAddrHi.toNat * 2 ^ 32 + o.keyAddrLo.toNat ∧
      o.dstAddr = o.dstAddrHi.toNat * 2 ^ 32 + o.dstAddrLo.toNat

/-- R230, R231: the reset input gives every piece of engine state its reset value, at any time. While idle memory is
unchanged. While busy the command is aborted: each byte of its destination holds a draw, and all other memory is
unchanged. R231 names the bytes at `DST_ADDR` for any command; that SHA1_INIT, SHA1_UPDATE and an illegal word have no
destination, so that under them memory is unchanged, is read from R74 and R204 (DEDUCED, log 13). -/
def Obligations.ResetInput : Prop :=
  ∀ (s : State) (rest : List Turn), s.mem.wf → s.agenda = .reset :: rest →
    ∃ t, step s = .next t ∧ t.ops = State.reset.ops ∧ t.status = State.reset.status ∧ t.ctx = State.reset.ctx ∧
      t.cmdlat = State.reset.cmdlat ∧ t.scratch = State.reset.scratch ∧ t.agenda = rest ∧
      (s.status.busy = false ∨ (∀ i, decode s.cmdlat ≠ .ok i) → t.mem = s.mem) ∧
      ∀ i, s.status.busy = true → decode s.cmdlat = .ok i →
        MemorySameOutside s.ops.dstAddr (destLength i) s t ∧
          ∀ a < 2 ^ 64, InDestination i s a → t.mem.read a = Config.freeByte s.draws .abortedDestination a

/-- R243, R78, R61: `POLL` ends, and what other agents load then. When the latched command's step answers a next state, a
host that polls reads BUSY = 1, the engine completes, and the host's next read returns BUSY = 0: three steps, after which the
poll is off the agenda (log 3). A load that follows returns the byte the command left in memory: any load where accesses are
coherent, else one not through the caches, or one through the caches after an invalidation (R66) of a byte the host holds no
store of; without an invalidation one through the caches of a byte the command has written returns a draw (R66; DESIGN
CHOICE, log 12). That an agent's load takes effect in the order of the agenda is DEDUCED (log 23); what one not through the caches
sees without coherence is the model's choice (DESIGN CHOICE, log 12). -/
def Obligations.PollEndsAfterCompletion : Prop :=
  ∀ (s : State) (i : Instr) (rest : List Turn) (t : State), s.status.busy = true → decode s.cmdlat = .ok i →
    s.agenda = .poll :: rest →
    exec i { s with agenda := .poll :: rest, readData := s.status.word } = .next t →
    ∃ u, core.run 3 s = .next u ∧ u.status = t.status ∧ u.status.busy = false ∧ u.readData = u.status.word ∧
      u.agenda = rest ∧ u.mem = t.mem ∧ u.ctx = t.ctx ∧ u.ops = s.ops ∧
      ∀ (a : Addr) (more : List Turn),
        (∀ cached, rest = .load cached a :: more → cached = false ∨ s.platform.dmaCoherent = true →
          ∃ w, step u = .next w ∧ w.readData = (t.mem.read a.toNat).setWidth 32 ∧ w.mem = t.mem) ∧
        (rest = .load true a :: more → s.platform.dmaCoherent = false → InDestination i s a.toNat →
          t.status.result = .ok ∨ i = .eapolMic →
          ∃ w, step u = .next w ∧ w.readData = (Config.freeByte u.draws .agentLoad a.toNat).setWidth 32) ∧
        ∀ r, rest = .invalidate r :: .load true a :: more → inRange r a.toNat = true → a.toNat ∉ s.sharing.dirty →
          ∃ w, core.run 2 u = .next w ∧ w.readData = (t.mem.read a.toNat).setWidth 32 ∧
            w.mem.read a.toNat = t.mem.read a.toNat

/-- R20, R39, R41, R62: while a command is in progress, no turn of an agent but the engine and the reset input changes the
command word, its operands, the visible context or STATUS, or drops a note of another agent's access (DEDUCED, log 10). -/
def Obligations.CommandUndisturbedWhileBusy : Prop :=
  ∀ (s t : State) (turn : Turn) (rest : List Turn), s.status.busy = true → s.agenda = turn :: rest →
    turn ≠ .engine → turn ≠ .reset → step s = .next t →
    t.cmdlat = s.cmdlat ∧ t.ops = s.ops ∧ t.ctx = s.ctx ∧ t.status = s.status ∧ t.scratch = s.scratch ∧
      s.sharing.writes ⊆ t.sharing.writes ∧ s.sharing.reads ⊆ t.sharing.reads

/-! ### Invariants -/

/-- R45: the state after reset, register by register as the host reads it, and the hidden state. -/
def Obligations.ResetState : Prop :=
  (∀ r, regValue State.reset r = 0) ∧ State.reset.status.busy = false ∧ State.reset.status.ctxValid = false ∧
    State.reset.status.result = .none ∧ State.reset.ctx.h = ⟨0, 0, 0, 0, 0⟩ ∧ State.reset.ctx.count = 0 ∧
    State.reset.ctx.buf.toList = zeros 64 ∧ State.reset.cmdlat = 0 ∧ State.reset.scratch = Scratch.zero

/-- The state after reset meets the invariant of `StepKeepsInv`. -/
def Obligations.ResetMeetsInv : Prop := State.reset.Inv

/-- R36, R37, R46, R241, R50, R9: every step keeps the invariant: canonical memory, scratch zero between steps, RESULT = NONE
while busy, the visible context zero outside SHA1_INIT .. SHA1_FINAL, a whole number of bytes in the bit count, accesses of
other agents noted only while a command is in progress, and only bytes of memory noted. It never changes what the platform
fixes. -/
def Obligations.StepKeepsInv : Prop :=
  ∀ s t : State, s.Inv → step s = .next t → t.Inv ∧ t.platform = s.platform

/-- R207, R208, R51, R52, R32, R58: how a step can stop. The only fault is BusFault: the engine takes its step, the access it
names is one the latched command makes, every access before it passes its check, and it wraps or is refused by `MemAdmits`.
The only refusals are of the next turn, where that is an ill-formed host access to the window (log 21), and of such an access
of the command, in range and admitted, to device memory (log 8); no command is refused as unmodelled. -/
def Obligations.HowAStepStops : Prop :=
  ∀ s : State,
    (∀ f, step s = .fault f →
      s.status.busy = true ∧ (s.agenda = [] ∨ ∃ rest, s.agenda = .engine :: rest) ∧
        ∃ (i : Instr) (x : EngineAccess), decode s.cmdlat = .ok i ∧ Reaches i s x ∧ Refused s x.kind x.addr x.len ∧
          f = .busFault x.addr s.cmdlat) ∧
    ∀ r, step s = .refused r →
      (∃ (addr : Addr) (w : Nat) (rest : List Turn),
        ((∃ v, s.agenda = .write addr w v :: rest) ∨ s.agenda = .read addr w :: rest) ∧ windowOffset s addr w = none ∧
          r = .windowAccess addr.toNat w) ∨
      (s.status.busy = true ∧ (s.agenda = [] ∨ ∃ rest, s.agenda = .engine :: rest) ∧
        ∃ (i : Instr) (x : EngineAccess), decode s.cmdlat = .ok i ∧ Reaches i s x ∧ ¬ Refused s x.kind x.addr x.len ∧
          touchesDevice s.platform x.addr x.len = true ∧ r = .deviceMemory x.addr)

/-! ### Memory accesses (20_memory.md) -/

/-- R50, R51: a write of one byte stores it there and leaves every other byte alone; inside the address space it keeps
the canonical form, in which memories that read alike are equal. -/
def Obligations.MemoryWriteAndForm : Prop :=
  (∀ (m : Memory) (a : Nat) (v : Byte), m.wf →
    (m.write a v).read a = v ∧ (∀ b, b ≠ a → (m.write a v).read b = m.read b) ∧ (a < 2 ^ 64 → (m.write a v).wf)) ∧
  ∀ m n : Memory, m.wf → n.wf → (∀ a, m.read a = n.read a) → m = n

/-- R51, R52: an access of `n` bytes, `n` at least 1, whose range wraps or which `MemAdmits` refuses ends in BusFault at
its start address and accesses nothing; a fragment table is checked as one access of `16 * count` bytes. -/
def Obligations.RefusedAccessFaults : Prop :=
  ∀ (s : State) (slot addr n : Nat) (v : List Byte),
    (Refused s .read addr n → memRead s slot addr n = .error (.fault (.busFault addr s.cmdlat))) ∧
    (v.length = n → Refused s .write addr n → memWrite s addr v = .error (.fault (.busFault addr s.cmdlat))) ∧
    (Refused s .read addr (16 * n) → readFrags s addr n = .error (.fault (.busFault addr s.cmdlat)))

/-- R53: a zero-length access is not checked, whatever its address: a read returns the empty string, a write changes
nothing. -/
def Obligations.ZeroLengthUnchecked : Prop :=
  ∀ (s : State) (slot addr : Nat),
    memRead s slot addr 0 = .ok [] ∧ ∃ t, memWrite s addr [] = .ok t ∧ t = s

/-- R51, R62, R66, R236: an admitted read returns the bytes of memory while no other agent breaks a duty. A byte another agent
has written since acceptance, or has touched in a destination in use (DEDUCED, log 10), or breaks a duty on before the host
reads BUSY = 0 (DEDUCED, log 11), reads as a draw of its own in each access; so does a byte the host has not cleaned, or cleans
or invalidates only after acceptance (DESIGN CHOICE, log 12). Every command that completes leaves another draw in each byte
of its destination that another agent has touched since acceptance, also where the command itself writes nothing (DEDUCED,
log 10).
Which turns make a byte race: while a command is in progress a load and a store are noted, and an accepted CMD write starts
the notes anew (log 10, 23); without coherence a store through the caches waits to be cleaned, and one past them leaves the
caches stale (log 12); a store to come, or a load to come of a destination in use, counts until a poll or a read of STATUS that
finds the engine idle (log 11). Another agent's load of a destination in use, or through stale caches, returns a draw, and a
load or store of a completed destination in use leaves one there (log 11, 12). -/
def Obligations.EngineBytesAndRaces : Prop :=
  (∀ (s : State) (slot : Nat),
    (∀ addr n, s.DutiesKept → Admitted s .read addr n →
      memRead s slot addr n = .ok ((List.range n).map fun i => s.mem.read (addr + i))) ∧
    (∀ a, a ∈ s.sharing.writes ∨ (∃ i, decode s.cmdlat = .ok i ∧ Raced i s a) ∨
        (a ∈ s.sharing.reads ∧ inRanges s.sharing.unseen a = true) ∨ a ∈ upcoming s ∨
        (s.platform.dmaCoherent = false ∧ a ∈ s.sharing.dirty) →
      engineByte s slot a = Config.freeByte s.draws (.engineRead slot) a) ∧
    ∀ (r : Range) (a : Nat), s.status.busy = true → a ∈ s.sharing.dirty → inRange r a = true →
      engineByte (cacheClean r s) slot a = Config.freeByte (s.draws + 1) (.engineRead slot) a ∧
      engineByte (cacheInvalidate r s) slot a = Config.freeByte (s.draws + 1) (.engineRead slot) a) ∧
  (∀ (i : Instr) (s t : State) (a : Nat), exec i s = .next t →
    (InDestination i s a → inRanges t.sharing.unseen a = true) ∧
    (s.Inv → Raced i s a → t.mem.read a = Config.freeByte s.draws .engineWrite a)) ∧
  (∀ (s : State) (cached : Bool) (a : Addr) (v : Byte) (rest : List Turn),
    (s.agenda = .store cached a v :: rest →
      ∃ t, step s = .next t ∧ (s.status.busy = true → a.toNat ∈ t.sharing.writes) ∧
        (s.platform.dmaCoherent = false → a.toNat ∈ if cached then t.sharing.dirty else t.sharing.stale) ∧
        (s.Inv → inRanges s.sharing.unseen a.toNat = true →
          t.mem.read a.toNat = Config.freeByte s.draws .racedDestination a.toNat)) ∧
    (s.agenda = .load cached a :: rest →
      ∃ t, step s = .next t ∧ (s.status.busy = true → a.toNat ∈ t.sharing.reads) ∧
        (DestinationInUse s a.toNat ∨
            (cached = true ∧ s.platform.dmaCoherent = false ∧ a.toNat ∈ s.sharing.stale) →
          t.readData = (Config.freeByte s.draws .agentLoad a.toNat).setWidth 32 ∧ t.draws = s.draws + 1) ∧
        (s.Inv → inRanges s.sharing.unseen a.toNat = true →
          t.mem.read a.toNat = Config.freeByte s.draws .racedDestination a.toNat))) ∧
  (∀ (s : State) (w : Word) (rest : List Turn), s.status.busy = false → s.agenda = wr s .cmd w :: rest →
    ∃ t, step s = .next t ∧ t.sharing.writes = [] ∧ t.sharing.reads = [] ∧ t.sharing.unseen = s.sharing.unseen) ∧
  ∀ (s : State) (before after : List Turn) (cached : Bool) (a : Addr) (v : Byte), NoIdleRead s before →
    (s.agenda = before ++ .store cached a v :: after → a.toNat ∈ upcoming s) ∧
    (s.agenda = before ++ .load cached a :: after →
      (∃ i, decode s.cmdlat = .ok i ∧ InDestination i s a.toNat) ∨ inRanges s.sharing.unseen a.toNat = true →
      a.toNat ∈ upcoming s) ∧
    (s.agenda = .poll :: after ∨ s.agenda = rd s .status :: after → upcoming s = [])

/-- R55, R56: `ReadFrags` answers the fragments the table names, in table order, when every access is admitted. Descriptor
`k` of a table is its bytes `16k` on: a little-endian address in bytes 0 to 7 and a little-endian length in bytes 8 to 11;
bytes 12 to 15 are ignored. -/
def Obligations.ReadFragsInOrder : Prop :=
  (∀ (s : State) (tab count : Nat), FragsAdmitted s tab count → readFrags s tab count = .ok (fragBytes s tab count)) ∧
  ∀ (table : List Byte) (k : Nat) (b : Nat → Nat), (∀ j, b j = (table.getD (16 * k + j) 0).toNat) →
    fragAddr table k =
      b 0 + 256 * (b 1 + 256 * (b 2 + 256 * (b 3 + 256 * (b 4 + 256 * (b 5 + 256 * (b 6 + 256 * b 7)))))) ∧
    fragLen table k = b 8 + 256 * (b 9 + 256 * (b 10 + 256 * b 11))

/-- R60, R66: what another agent stores while the engine is idle, and no agent touches in breach of a duty while the next
command is in use, is what that command reads there: a store where accesses are coherent, or one through the caches that is
cleaned before acceptance. R60 speaks of the host's writes; that any other agent's store counts too, in the order of the
agenda, is DEDUCED (log 23). That without coherence an uncleaned store not through the caches, of a byte they hold no store
of, is seen as well, and that a clean of a byte they hold no store of changes nothing there, are the model's choice (DESIGN
CHOICE, log 12). -/
def Obligations.StoreBeforeAcceptanceSeen : Prop :=
  ∀ (s : State) (addr : Addr) (b : Byte) (rest : List Turn) (v : Word) (slot : Nat), s.Inv →
    s.status.busy = false → s.sharing.unseen = [] → addr.toNat ∉ upcoming (accept v { s with agenda := rest }) →
    (∀ cached, s.agenda = .store cached addr b :: rest →
      s.platform.dmaCoherent = true ∨ (cached = false ∧ addr.toNat ∉ s.sharing.dirty) →
      ∃ t, step s = .next t ∧ engineByte (accept v t) slot addr.toNat = b ∧
        ∀ a, a ≠ addr.toNat → t.mem.read a = s.mem.read a) ∧
    ∀ cached r, s.agenda = .store cached addr b :: .clean r :: rest → inRange r addr.toNat = true →
      (cached = true ∧ s.platform.dmaCoherent = false) ∨ addr.toNat ∉ s.sharing.dirty →
      ∃ t, core.run 2 s = .next t ∧ engineByte (accept v t) slot addr.toNat = b

/-! ### SHA-1 (40_sha1_core.md) -/

/-- R109: the fill level is `COUNT_LO[8:3]`, which is `(COUNT div 8) mod 64`, from 0 to 63: the number of bytes pending at
the front of the buffer, which alone of the buffer's bytes reach a digest. -/
def Obligations.FillFromCount : Prop :=
  ∀ c : Ctx, c.fill = (c.countLo.extractLsb' 3 6).toNat ∧ c.fill = c.count.toNat / 8 % 64 ∧ c.fill ≤ 63 ∧
    ∀ d : Ctx, d.h = c.h → d.count = c.count → d.buf.toList.take c.fill = c.buf.toList.take c.fill →
      (finish d).1 = (finish c).1

/-- R110: the count after `n` bytes, in halves, with a carry of `floor((COUNT_LO + 8n) / 2^32)` into the high half. -/
def Obligations.CountInHalves : Prop :=
  ∀ (c : Ctx) (data : List Byte),
    (absorb c data).count.toNat = (c.count.toNat + 8 * data.length) % 2 ^ 64 ∧
      (absorb c data).countLo.toNat = (c.countLo.toNat + 8 * data.length) % 2 ^ 32 ∧
      (absorb c data).countHi.toNat =
        (c.countHi.toNat + (c.countLo.toNat + 8 * data.length) / 2 ^ 32) % 2 ^ 32

/-- R111: absorbing nothing changes nothing. Data that does not fill the block is copied to the pending buffer, runs no
compression, and leaves the other buffer bytes as they were. Data that does completes the block in the buffer, which is
compressed, then compresses each whole 64-byte window of what is left directly; the bytes left over go to the front of the
buffer, whose other bytes stay those of the first window. -/
def Obligations.AbsorbShort : Prop :=
  ∀ (c : Ctx) (data : List Byte), absorb c [] = c ∧
    (c.fill + data.length ≤ 63 →
      (absorb c data).h = c.h ∧
        ∀ p < 64, (absorb c data).buf.toList.getD p 0 =
          if c.fill ≤ p ∧ p < c.fill + data.length then data.getD (p - c.fill) 0 else c.buf.toList.getD p 0) ∧
    (63 < c.fill + data.length →
      (absorb c data).h =
        (List.range ((data.length - (64 - c.fill)) / 64)).foldl
          (fun h k => compress h ((data.drop (64 - c.fill + 64 * k)).take 64))
          (compress c.h (c.buf.toList.take c.fill ++ data.take (64 - c.fill))) ∧
        ∀ p < 64, (absorb c data).buf.toList.getD p 0 =
          if p < (c.fill + data.length) % 64 then data.getD (data.length - (c.fill + data.length) % 64 + p) 0
          else if p < c.fill then c.buf.toList.getD p 0
          else data.getD (p - c.fill) 0)

/-- R112: chunking independence. -/
def Obligations.ChunkingIndependent : Prop :=
  ∀ (c : Ctx) (a b : List Byte),
    (absorb (absorb c a) b).h = (absorb c (a ++ b)).h ∧
      (absorb (absorb c a) b).count = (absorb c (a ++ b)).count ∧
      (absorb (absorb c a) b).buf.toList.take (absorb c (a ++ b)).fill =
        (absorb c (a ++ b)).buf.toList.take (absorb c (a ++ b)).fill

/-- R113, R114: what Finish compresses. With a fill of at most 55 it is one block: the pending bytes, 0x80, zeros and the
count, big-endian and high half first (log 18); with a fill of 56 or more it is two. -/
def Obligations.FinishCompressions : Prop :=
  ∀ c : Ctx,
    (c.fill ≤ 55 →
      (finish c).1 = digestBytes (compress c.h
        (c.buf.toList.take c.fill ++ [0x80#8] ++ zeros (55 - c.fill) ++ be32bytes c.countHi ++ be32bytes c.countLo))) ∧
    (56 ≤ c.fill →
      (finish c).1 = digestBytes (compress
        (compress c.h (c.buf.toList.take c.fill ++ [0x80#8] ++ zeros (63 - c.fill)))
        (zeros 56 ++ be32bytes c.countHi ++ be32bytes c.countLo)))

/-- R115, R116: the digest is 20 bytes, each state word big-endian; the context Finish leaves is zero. -/
def Obligations.DigestBigEndian : Prop :=
  ∀ (h : HashWords) (c : Ctx),
    (digestBytes h).length = 20 ∧
      (be32 ((digestBytes h).take 4) = h.h0 ∧ be32 (((digestBytes h).drop 4).take 4) = h.h1 ∧
        be32 (((digestBytes h).drop 8).take 4) = h.h2 ∧ be32 (((digestBytes h).drop 12).take 4) = h.h3 ∧
        be32 (((digestBytes h).drop 16).take 4) = h.h4) ∧
      (digestBytes h).getD 0 0 = h.h0.extractLsb' 24 8 ∧ (finish c).2 = Ctx.zero

/-- R118: SHA-1 of a fragment list is SHA-1 of the concatenation of its fragments. -/
def Obligations.Sha1OfConcatenation : Prop :=
  ∀ frags : List (List Byte), sha1 frags = sha1 [frags.flatten]

/-- R134, R118: init, an update per fragment and finalize give the digest of the vector form, whatever bytes the buffer
held before the init. -/
def Obligations.IncrementalEqualsVector : Prop :=
  ∀ (c : Ctx) (frags : List (List Byte)), (finish (frags.foldl absorb (initCtx c))).1 = sha1 frags

/-- R100, R102 to R105: the sixteen big-endian words of a block; the schedule, updated in place, once per round from round 16
on and before the round reads it, where the update of round `i` writes word `i mod 16` and no other word, nor any working
variable; what a round computes, with the mixing function and the constant of its phase; and the final addition after 80
rounds. The renaming of the working variables and the majority formula are the spec's from general knowledge (log 18). -/
def Obligations.ScheduleInPlace : Prop :=
  (∀ (block : List Byte) (k : Work) (t : Fin 16), schedWord { k with w := blockWords block } t.val =
    block.getD (4 * t.val) 0 ++ block.getD (4 * t.val + 1) 0 ++ block.getD (4 * t.val + 2) 0 ++
      block.getD (4 * t.val + 3) 0) ∧
  (∀ (k : Work) (i j : Nat),
    sha1Rounds 0 k = k ∧ sha1Rounds (i + 1) k = sha1Round i (expandSchedule i (sha1Rounds i k)) ∧
    (i < 16 → expandSchedule i k = k) ∧
    (16 ≤ i →
      (∀ x, x = schedWord k (i - 3) ^^^ schedWord k (i - 8) ^^^ schedWord k (i - 14) ^^^ schedWord k (i - 16) →
        schedWord (expandSchedule i k) j = if j % 16 = i % 16 then (x <<< 1) ||| (x >>> 31) else schedWord k j) ∧
      (expandSchedule i k).a = k.a ∧ (expandSchedule i k).b = k.b ∧ (expandSchedule i k).c = k.c ∧
      (expandSchedule i k).d = k.d ∧ (expandSchedule i k).e = k.e)) ∧
  (∀ (k : Work) (i : Nat), i < 80 →
    (sha1Round i k).a = ((k.a <<< 5) ||| (k.a >>> 27)) +
      (if i < 20 then (k.b &&& (k.c ^^^ k.d)) ^^^ k.d
      else if i < 40 then k.b ^^^ k.c ^^^ k.d
      else if i < 60 then ((k.b ||| k.c) &&& k.d) ||| (k.b &&& k.c)
      else k.b ^^^ k.c ^^^ k.d) + k.e +
      (if i < 20 then 0x5A827999#32 else if i < 40 then 0x6ED9EBA1#32 else if i < 60 then 0x8F1BBCDC#32
      else 0xCA62C1D6#32) + schedWord k i ∧
    (sha1Round i k).b = k.a ∧ (sha1Round i k).c = (k.b <<< 30) ||| (k.b >>> 2) ∧ (sha1Round i k).d = k.c ∧
    (sha1Round i k).e = k.d ∧ (sha1Round i k).w = k.w) ∧
  ∀ (h : HashWords) (block : List Byte) (k : Work),
    k = sha1Rounds 80 ⟨blockWords block, h.h0, h.h1, h.h2, h.h3, h.h4⟩ →
    compress h block = ⟨h.h0 + k.a, h.h1 + k.b, h.h2 + k.c, h.h3 + k.d, h.h4 + k.e⟩

/-! ### HMAC and MIC (42_hmac_commands.md, 43_mic_command.md) -/

/-- R150 to R154: HMAC-SHA1 as the two nested hashes of RFC 2104, 20 bytes that depend on the concatenation of the
fragments. A key of at most 64 bytes is used as it is; a longer one acts as its 20-byte digest. -/
def Obligations.HmacNestedHashes : Prop :=
  ∀ (key : List Byte) (frags : List (List Byte)), (hmacFn key frags).length = 20 ∧
    (key.length ≤ 64 →
      hmacFn key frags =
        sha1 [(key ++ zeros (64 - key.length)).map (· ^^^ 0x5c#8) ++
          sha1 [(key ++ zeros (64 - key.length)).map (· ^^^ 0x36#8) ++ frags.flatten]]) ∧
    (64 < key.length → hmacFn key frags = hmacFn (sha1 [key]) frags ∧ (sha1 [key]).length = 20)

/-! ### The commands (41, 42, 43) -/

/-- R130, R101: SHA1_INIT, command word 0x00000001, always completes with OK: H is the initial value (PRESUMED by the spec,
log 18), COUNT is 0, the buffer is unchanged, CTX_VALID is 1, and memory is untouched. -/
def Obligations.Sha1InitCompletes : Prop :=
  decode 0x00000001#32 = .ok .sha1Init ∧ ∀ s : State, ∃ t, exec .sha1Init s = .next t ∧ CompletedWith .ok t ∧ t.status.ctxValid = true ∧
    t.ctx.h = ⟨0x67452301#32, 0xEFCDAB89#32, 0x98BADCFE#32, 0x10325476#32, 0xC3D2E1F0#32⟩ ∧ t.ctx.count = 0 ∧
    t.ctx.buf = s.ctx.buf ∧ t.mem = s.mem ∧ CommandFrame s t

/-- R131: SHA1_UPDATE with CTX_VALID = 1 and an admitted read absorbs `SRC_LEN` bytes at `SRC_ADDR` and completes with
OK; memory and CTX_VALID are unchanged. -/
def Obligations.Sha1UpdateCompletes : Prop :=
  ∀ s : State, s.status.ctxValid = true → Admitted s .read s.ops.srcAddr s.ops.srcLen.toNat →
    ∃ t, exec .sha1Update s = .next t ∧ CompletedWith .ok t ∧ t.status.ctxValid = true ∧
      t.ctx = absorb s.ctx (engineBytes s 1 s.ops.srcAddr s.ops.srcLen.toNat) ∧ t.mem = s.mem ∧ CommandFrame s t

/-- R132: SHA1_FINAL with CTX_VALID = 1 and an admitted write completes with OK: the 20 digest bytes are at `DST_ADDR`, no
other byte changes, CTX_VALID is 0 and every `CTX_*` register reads 0. -/
def Obligations.Sha1FinalCompletes : Prop :=
  ∀ s : State, s.mem.wf → s.status.ctxValid = true → s.sharing.writes = [] → s.sharing.reads = [] →
    Admitted s .write s.ops.dstAddr 20 →
    ∃ t, exec .sha1Final s = .next t ∧ CompletedWith .ok t ∧ t.status.ctxValid = false ∧
      MemoryHolds t s.ops.dstAddr (finish s.ctx).1 ∧ MemorySameOutside s.ops.dstAddr 20 s t ∧
      (∀ r ∈ ctxRegs, regValue t r = 0) ∧ CommandFrame s t

/-- R205: SHA1_UPDATE and SHA1_FINAL with CTX_VALID = 0 complete with ERR_SEQUENCE before any memory access, and change
nothing else; only a destination byte another agent has touched may hold another value (R62; DEDUCED, log 10). -/
def Obligations.SequenceError : Prop :=
  ∀ (s : State) (i : Instr), i = .sha1Update ∨ i = .sha1Final → s.status.ctxValid = false →
    ∃ t, exec i s = .next t ∧ CompletedWith .errSequence t ∧ t.status.ctxValid = false ∧ t.ctx = s.ctx ∧
      MemoryKept i s t ∧ CommandFrame s t

/-- R133: SHA1_VECTOR with every access admitted completes with OK: the digest of the fragment list is at `DST_ADDR`, no
other byte changes, and the visible context and CTX_VALID are untouched. Any count, 0 included. -/
def Obligations.Sha1VectorCompletes : Prop :=
  ∀ s : State, s.mem.wf → s.sharing.writes = [] → s.sharing.reads = [] →
    FragsAdmitted s s.ops.srcAddr s.ops.srcLen.toNat → Admitted s .write s.ops.dstAddr 20 →
    ∃ t, exec .sha1Vector s = .next t ∧ CompletedWith .ok t ∧ t.status.ctxValid = s.status.ctxValid ∧
      t.ctx = s.ctx ∧ MemoryHolds t s.ops.dstAddr (sha1 (fragBytes s s.ops.srcAddr s.ops.srcLen.toNat)) ∧
      MemorySameOutside s.ops.dstAddr 20 s t ∧ CommandFrame s t

/-- R156: HMAC_VECTOR with at most 5 fragments and every access admitted completes with OK: the 20-byte MAC of the key over
the fragments is at `DST_ADDR`, and no other byte changes. -/
def Obligations.HmacVectorCompletes : Prop :=
  ∀ s : State, s.mem.wf → s.sharing.writes = [] → s.sharing.reads = [] → s.ops.srcLen.toNat ≤ 5 →
    Admitted s .read s.ops.keyAddr s.ops.keyLen.toNat → FragsAdmitted s s.ops.srcAddr s.ops.srcLen.toNat →
    Admitted s .write s.ops.dstAddr 20 →
    ∃ t, exec .hmacVector s = .next t ∧ CompletedWith .ok t ∧ t.status.ctxValid = s.status.ctxValid ∧ t.ctx = s.ctx ∧
      MemoryHolds t s.ops.dstAddr (hmacFn (engineBytes s 0 s.ops.keyAddr s.ops.keyLen.toNat)
        (fragBytes s s.ops.srcAddr s.ops.srcLen.toNat)) ∧
      MemorySameOutside s.ops.dstAddr 20 s t ∧ CommandFrame s t

/-- R202: HMAC_VECTOR with more than 5 fragments completes with ERR_FRAG_COUNT before any memory access: whatever the
addresses, no memory is read or written; only a destination byte another agent has touched may hold another value (R62;
DEDUCED, log 10). No other command produces that code. -/
def Obligations.FragmentCountError : Prop :=
  (∀ s : State, 5 < s.ops.srcLen.toNat →
    ∃ t, exec .hmacVector s = .next t ∧ CompletedWith .errFragCount t ∧ t.status.ctxValid = s.status.ctxValid ∧
      t.ctx = s.ctx ∧ MemoryKept .hmacVector s t ∧ CommandFrame s t) ∧
  ∀ (i : Instr) (s t : State), exec i s = .next t → t.status.result = .errFragCount →
    i = .hmacVector ∧ 5 < s.ops.srcLen.toNat

/-- R157: HMAC with every access admitted completes with OK: the 20-byte MAC of the key over the data range is at
`DST_ADDR`, and no other byte changes. -/
def Obligations.HmacCompletes : Prop :=
  ∀ s : State, s.mem.wf → s.sharing.writes = [] → s.sharing.reads = [] →
    Admitted s .read s.ops.keyAddr s.ops.keyLen.toNat → Admitted s .read s.ops.srcAddr s.ops.srcLen.toNat →
    Admitted s .write s.ops.dstAddr 20 →
    ∃ t, exec .hmac s = .next t ∧ CompletedWith .ok t ∧ t.status.ctxValid = s.status.ctxValid ∧ t.ctx = s.ctx ∧
      MemoryHolds t s.ops.dstAddr (hmacFn (engineBytes s 0 s.ops.keyAddr s.ops.keyLen.toNat)
        [engineBytes s 1 s.ops.srcAddr s.ops.srcLen.toNat]) ∧
      MemorySameOutside s.ops.dstAddr 20 s t ∧ CommandFrame s t

/-- R170 to R172: EAPOL_MIC with VERSION = 2 and every access admitted completes with OK: the first 16 bytes of the HMAC of
the frame, read with the field zeroed, are at `DST_ADDR`, and no other byte changes. -/
def Obligations.EapolMicCompletes : Prop :=
  ∀ s : State, s.mem.wf → s.sharing.writes = [] → s.sharing.reads = [] → s.ops.version = 2 →
    Admitted s .write s.ops.dstAddr 16 → Admitted s .read s.ops.keyAddr s.ops.keyLen.toNat →
    Admitted s .read s.ops.srcAddr s.ops.srcLen.toNat →
    ∃ t, exec .eapolMic s = .next t ∧ CompletedWith .ok t ∧ t.status.ctxValid = s.status.ctxValid ∧ t.ctx = s.ctx ∧
      MemoryHolds t s.ops.dstAddr
        ((hmacFn (engineBytes (afterWrite s s.ops.dstAddr (zeros 16)) 0 s.ops.keyAddr s.ops.keyLen.toNat)
          [engineBytes (afterWrite s s.ops.dstAddr (zeros 16)) 1 s.ops.srcAddr s.ops.srcLen.toNat]).take 16) ∧
      MemorySameOutside s.ops.dstAddr 16 s t ∧ CommandFrame s t

/-- R173, R203: EAPOL_MIC with any other VERSION completes with ERR_VERSION: 16 zero bytes are at `DST_ADDR`, no other byte
changes, and no key and no frame is read, whatever their addresses. -/
def Obligations.UnsupportedVersion : Prop :=
  ∀ s : State, s.mem.wf → s.sharing.writes = [] → s.sharing.reads = [] → s.ops.version ≠ 2 →
    Admitted s .write s.ops.dstAddr 16 →
    ∃ t, exec .eapolMic s = .next t ∧ CompletedWith .errVersion t ∧ t.status.ctxValid = s.status.ctxValid ∧
      t.ctx = s.ctx ∧ (∀ a, InDestination .eapolMic s a → t.mem.read a = 0) ∧
      MemorySameOutside s.ops.dstAddr 16 s t ∧ CommandFrame s t

/-- R207, R208: every command ends in BusFault at the first of its accesses that is refused, in the order its rule lists
them: the zero write of EAPOL_MIC, before its version check (R171); key, table, fragments, data; then the destination. -/
def Obligations.FirstRefusedAccessFaults : Prop :=
  ∀ s : State,
    (s.status.ctxValid = true → Refused s .read s.ops.srcAddr s.ops.srcLen.toNat →
      FaultsAt .sha1Update s s.ops.srcAddr) ∧
    (s.status.ctxValid = true → Refused s .write s.ops.dstAddr 20 → FaultsAt .sha1Final s s.ops.dstAddr) ∧
    ((Refused s .read s.ops.srcAddr (16 * s.ops.srcLen.toNat) → FaultsAt .sha1Vector s s.ops.srcAddr) ∧
      (∀ k, FirstRefusedFragment s s.ops.srcAddr s.ops.srcLen.toNat k →
        FaultsAt .sha1Vector s (fragAddr (tableBytes s s.ops.srcAddr s.ops.srcLen.toNat) k)) ∧
      (FragsAdmitted s s.ops.srcAddr s.ops.srcLen.toNat → Refused s .write s.ops.dstAddr 20 →
        FaultsAt .sha1Vector s s.ops.dstAddr)) ∧
    (s.ops.srcLen.toNat ≤ 5 →
      (Refused s .read s.ops.keyAddr s.ops.keyLen.toNat → FaultsAt .hmacVector s s.ops.keyAddr) ∧
      (Admitted s .read s.ops.keyAddr s.ops.keyLen.toNat →
        (Refused s .read s.ops.srcAddr (16 * s.ops.srcLen.toNat) → FaultsAt .hmacVector s s.ops.srcAddr) ∧
        (∀ k, FirstRefusedFragment s s.ops.srcAddr s.ops.srcLen.toNat k →
          FaultsAt .hmacVector s (fragAddr (tableBytes s s.ops.srcAddr s.ops.srcLen.toNat) k)) ∧
        (FragsAdmitted s s.ops.srcAddr s.ops.srcLen.toNat → Refused s .write s.ops.dstAddr 20 →
          FaultsAt .hmacVector s s.ops.dstAddr))) ∧
    ((Refused s .read s.ops.keyAddr s.ops.keyLen.toNat → FaultsAt .hmac s s.ops.keyAddr) ∧
      (Admitted s .read s.ops.keyAddr s.ops.keyLen.toNat →
        (Refused s .read s.ops.srcAddr s.ops.srcLen.toNat → FaultsAt .hmac s s.ops.srcAddr) ∧
        (Admitted s .read s.ops.srcAddr s.ops.srcLen.toNat → Refused s .write s.ops.dstAddr 20 →
          FaultsAt .hmac s s.ops.dstAddr))) ∧
    (Refused s .write s.ops.dstAddr 16 → FaultsAt .eapolMic s s.ops.dstAddr) ∧
    (Admitted s .write s.ops.dstAddr 16 → s.ops.version = 2 →
      (Refused s .read s.ops.keyAddr s.ops.keyLen.toNat → FaultsAt .eapolMic s s.ops.keyAddr) ∧
      (Admitted s .read s.ops.keyAddr s.ops.keyLen.toNat → Refused s .read s.ops.srcAddr s.ops.srcLen.toNat →
        FaultsAt .eapolMic s s.ops.srcAddr))

/-- R174: EAPOL_MIC does not depend on the bytes the MIC field held: two states alike but for them end alike. -/
def Obligations.MicIgnoresOldField : Prop :=
  ∀ (s : State) (m : Memory) (t : State), s.mem.wf → m.wf → s.ops.version = 2 →
    (∀ a, ¬ InDestination .eapolMic s a → m.read a = s.mem.read a) → exec .eapolMic s = .next t →
    exec .eapolMic { s with mem := m } = .next t

/-- R158: HMAC writes the MAC that HMAC_VECTOR writes for a table of one descriptor of the same range. -/
def Obligations.HmacFormsAgree : Prop :=
  ∀ (s : State) (tab : Addr) (t : State), s.mem.wf → s.DutiesKept → exec .hmac s = .next t →
    Admitted s .read tab.toNat 16 →
    fragAddr ((List.range 16).map fun i => s.mem.read (tab.toNat + i)) 0 = s.ops.srcAddr →
    fragLen ((List.range 16).map fun i => s.mem.read (tab.toNat + i)) 0 = s.ops.srcLen.toNat →
    ∃ u, exec .hmacVector { s with ops := { s.ops with
        srcAddrLo := tab.extractLsb' 0 32, srcAddrHi := tab.extractLsb' 32 32, srcLen := 1 } } = .next u ∧
      u.mem = t.mem ∧ u.status = t.status ∧ u.ctx = t.ctx

/-! ### Frames over every command -/

/-- R22, R38, R36: a command that completes leaves the operand registers, the latch, the platform and the other agents'
turns alone; BUSY is 0, RESULT is not NONE, and scratch is zero. -/
def Obligations.CompletionFrame : Prop :=
  ∀ (i : Instr) (s t : State), exec i s = .next t →
    CommandFrame s t ∧ t.status.busy = false ∧ t.status.result ≠ .none ∧ t.scratch = Scratch.zero

/-- R74, R59: a command that completes changes no byte of memory but the bytes of its destination; SHA1_INIT and
SHA1_UPDATE change none. -/
def Obligations.MemoryFrame : Prop :=
  ∀ (i : Instr) (s t : State), exec i s = .next t →
    (∀ a, ¬ InDestination i s a → t.mem.read a = s.mem.read a) ∧ (destLength i = 0 → t.mem = s.mem)

/-- R47, R29: the composite commands neither read nor write the visible context and CTX_VALID: they leave both alone, and
what they do to memory and the result code is the same whatever the context is. -/
def Obligations.CompositeLeavesContext : Prop :=
  ∀ (i : Instr) (s t : State), i ∉ [Instr.sha1Init, Instr.sha1Update, Instr.sha1Final] → exec i s = .next t →
    t.ctx = s.ctx ∧ t.status.ctxValid = s.status.ctxValid ∧
      ∀ (c : Ctx) (b : Bool),
        exec i (setCtx c (setCtxValid b s)) = .next (setCtx c (setCtxValid b t))

/-- R209: a command that completes with any code but OK writes no memory, except EAPOL_MIC with ERR_VERSION; only a
destination byte another agent has touched may hold another value (R62; DEDUCED, log 10). -/
def Obligations.NoPartialOutput : Prop :=
  ∀ (i : Instr) (s t : State), exec i s = .next t → t.status.result ≠ .ok →
    MemoryKept i s t ∨ (i = .eapolMic ∧ t.status.result = .errVersion)

/-- R201, R206: which result each command produces, and when: past its own checks a command completes with OK. -/
def Obligations.ResultCodeOfCommand : Prop :=
  ∀ (i : Instr) (s t : State), exec i s = .next t →
    t.status.result =
      (if (i = .sha1Update ∨ i = .sha1Final) ∧ s.status.ctxValid = false then .errSequence
      else if i = .hmacVector ∧ 5 < s.ops.srcLen.toNat then .errFragCount
      else if i = .eapolMic ∧ s.ops.version ≠ 2 then .errVersion
      else .ok)

/-- R27: SHA1_INIT sets CTX_VALID, SHA1_FINAL that completes with OK clears it, and no other command changes it. -/
def Obligations.CtxValidLifecycle : Prop :=
  ∀ (i : Instr) (s t : State), exec i s = .next t →
    t.status.ctxValid =
      (if i = .sha1Init then true
      else if i = .sha1Final ∧ t.status.result = .ok then false
      else s.status.ctxValid)
end

