-- ==== Sys2Proof/Laws/Memory.lean ====
section
/-! SUPPORT. Memory: a byte read after a write, the bytes a write leaves alone, and the canonical form every memory
operation keeps. -/

namespace Sys2Proof.Machine

theorem read_cell_append (m : Memory) (a b : Nat) (v : Byte) (h : a ≠ b ∨ m.read a = Memory.unlisted) :
    Memory.read (Memory.cell a v ++ m) b = if a = b then v else m.read b := by
  unfold Memory.cell
  by_cases hv : v = Memory.unlisted
  · by_cases hab : a = b
    · subst hab; simpa [hv] using h
    · simp [hv, hab]
  · simp [hv, Memory.read]

/-- An address below every listed one reads as unlisted. -/
theorem read_of_lt (m : Memory) (a : Nat) (h : ∀ c ∈ m, a < c.1) : m.read a = Memory.unlisted := by
  induction m with
  | nil => rfl
  | cons c m ih =>
    have h1 : a < c.1 := h c (by simp)
    simp only [Memory.read, if_neg (show ¬ c.1 = a by omega)]
    exact ih fun d hd => h d (by simp [hd])

/-- A read after a write: the value written there, every other byte as before. -/
theorem read_write (m : Memory) (hm : m.Pairwise fun c d => c.1 < d.1) (a : Nat) (v : Byte) (b : Nat) :
    (m.write a v).read b = if a = b then v else m.read b := by
  induction m with
  | nil =>
    have := read_cell_append [] a b v (Or.inr rfl)
    simpa [Memory.write] using this
  | cons c m ih =>
    obtain ⟨c1, c2⟩ := c
    have hm' := List.pairwise_cons.1 hm
    simp only [Memory.write]
    by_cases h1 : a < c1
    · rw [if_pos h1, read_cell_append]
      refine Or.inr (read_of_lt _ _ fun d hd => ?_)
      rcases List.mem_cons.1 hd with rfl | hd
      · exact h1
      · exact lt_trans h1 (hm'.1 d hd)
    · rw [if_neg h1]
      by_cases h2 : a = c1
      · subst h2
        rw [if_pos rfl, read_cell_append _ _ _ _ (Or.inr (read_of_lt _ _ fun d hd => hm'.1 d hd))]
        by_cases hab : a = b <;> simp [Memory.read, hab]
      · rw [if_neg h2]
        simp only [Memory.read]
        by_cases h3 : c1 = b
        · subst h3; simp [h2]
        · simp [h3, ih hm'.2]

/-- A write leaves every other byte alone, whatever the form of memory. -/
theorem read_write_other (m : Memory) (a : Nat) (v : Byte) {b : Nat} (h : a ≠ b) : (m.write a v).read b = m.read b := by
  have cell : ∀ n : Memory, Memory.read (Memory.cell a v ++ n) b = n.read b := fun n => by
    rw [read_cell_append n a b v (Or.inl h), if_neg h]
  induction m with
  | nil => simpa [Memory.write] using cell []
  | cons c m ih =>
    simp only [Memory.write]
    split
    · exact cell _
    · split
      · rename_i h2
        rw [cell, Memory.read, if_neg (by omega)]
      · simp only [Memory.read, ih]

/-- A byte string leaves every byte outside it alone, whatever the form of memory. -/
theorem read_writeBytes_outside (m : Memory) (a : Nat) (v : List Byte) {b : Nat} (h : ¬ (a ≤ b ∧ b < a + v.length)) :
    (m.writeBytes a v).read b = m.read b := by
  induction v generalizing m a with
  | nil => rfl
  | cons x v ih =>
    rw [List.length_cons] at h
    rw [Memory.writeBytes, ih _ _ (by omega), read_write_other m a x (by omega)]

/-- A write lists no address but its own and those listed before. -/
theorem mem_write {m : Memory} {a : Nat} {v : Byte} {c : Host.Cell} (h : c ∈ m.write a v) :
    c ∈ m ∨ (c = (a, v) ∧ v ≠ Memory.unlisted) := by
  have cell : ∀ n : Memory, c ∈ Memory.cell a v ++ n → c ∈ n ∨ (c = (a, v) ∧ v ≠ Memory.unlisted) := by
    intro n hn
    unfold Memory.cell at hn
    by_cases hv : v = Memory.unlisted
    · rw [if_pos hv] at hn; exact Or.inl (by simpa using hn)
    · rw [if_neg hv] at hn
      rcases List.mem_append.1 hn with hn | hn
      · exact Or.inr ⟨by simpa using hn, hv⟩
      · exact Or.inl hn
  induction m with
  | nil => exact cell [] (by simpa [Memory.write] using h)
  | cons d m ih =>
    obtain ⟨d1, d2⟩ := d
    simp only [Memory.write] at h
    split at h
    · exact cell _ h
    · split at h
      · rcases cell _ h with h | h
        · exact Or.inl (by simp [h])
        · exact Or.inr h
      · rcases List.mem_cons.1 h with rfl | h
        · exact Or.inl (by simp)
        · rcases ih h with h | h
          · exact Or.inl (by simp [h])
          · exact Or.inr h

theorem pairwise_cell_append (m : Memory) (a : Nat) (v : Byte) (hm : m.Pairwise fun c d => c.1 < d.1)
    (h : ∀ c ∈ m, a < c.1) : (Memory.cell a v ++ m).Pairwise fun c d => c.1 < d.1 := by
  unfold Memory.cell
  split
  · simpa using hm
  · exact List.pairwise_cons.2 ⟨h, hm⟩

theorem write_pairwise (m : Memory) (hm : m.Pairwise fun c d => c.1 < d.1) (a : Nat) (v : Byte) :
    (m.write a v).Pairwise fun c d => c.1 < d.1 := by
  induction m with
  | nil => simpa [Memory.write] using pairwise_cell_append [] a v (by simp) (by simp)
  | cons c m ih =>
    obtain ⟨c1, c2⟩ := c
    have hm' := List.pairwise_cons.1 hm
    simp only [Memory.write]
    by_cases h1 : a < c1
    · rw [if_pos h1]
      refine pairwise_cell_append _ a v hm fun d hd => ?_
      rcases List.mem_cons.1 hd with rfl | hd
      · exact h1
      · exact lt_trans h1 (hm'.1 d hd)
    · rw [if_neg h1]
      by_cases h2 : a = c1
      · subst h2
        rw [if_pos rfl]
        exact pairwise_cell_append m a v hm'.2 hm'.1
      · rw [if_neg h2]
        refine List.pairwise_cons.2 ⟨fun d hd => ?_, ih hm'.2⟩
        rcases mem_write hd with hd | ⟨rfl, -⟩
        · exact hm'.1 d hd
        · show c1 < a
          omega

/-- A write of a byte of system memory keeps the canonical form. -/
theorem write_wf {m : Memory} (hm : m.wf) {a : Nat} (ha : a < 2 ^ 64) (v : Byte) : (m.write a v).wf := by
  refine ⟨write_pairwise m hm.1 a v, fun c hc => ?_⟩
  rcases mem_write hc with hc | ⟨rfl, hv⟩
  · exact hm.2 c hc
  · exact ⟨ha, hv⟩

/-- A write of a byte string inside system memory keeps the canonical form. -/
theorem writeBytes_wf {m : Memory} (hm : m.wf) {a : Nat} {v : List Byte} (ha : a + v.length ≤ 2 ^ 64) :
    (m.writeBytes a v).wf := by
  induction v generalizing m a with
  | nil => exact hm
  | cons x v ih =>
    have h : a + (v.length + 1) ≤ 2 ^ 64 := by simpa using ha
    exact ih (write_wf hm (show a < 2 ^ 64 by omega) x) (by omega)

/-- The bytes of memory after a byte string is written. -/
theorem read_writeBytes (m : Memory) (hm : m.Pairwise fun c d => c.1 < d.1) (a : Nat) (v : List Byte) (b : Nat) :
    (m.writeBytes a v).read b = if a ≤ b ∧ b < a + v.length then v.getD (b - a) 0 else m.read b := by
  induction v generalizing m a with
  | nil => simp [Memory.writeBytes]
  | cons x v ih =>
    rw [Memory.writeBytes, ih _ (write_pairwise m hm a x), read_write m hm]
    simp only [List.length_cons]
    by_cases h1 : a = b
    · subst h1
      rw [if_neg (by omega), if_pos rfl, if_pos (by omega)]
      simp
    · rw [if_neg h1]
      by_cases h2 : a + 1 ≤ b ∧ b < a + 1 + v.length
      · rw [if_pos h2, if_pos (by omega), show b - a = (b - (a + 1)) + 1 by omega]
        simp
      · rw [if_neg h2, if_neg (by omega)]

/-- Drawing each byte of a list keeps the canonical form. -/
theorem drawEach_wf {m : Memory} (hm : m.wf) (draw : Nat) (use : FreeUse) {addrs : List Nat}
    (h : ∀ a ∈ addrs, a < 2 ^ 64) : (drawEach draw use m addrs).wf := by
  induction addrs generalizing m with
  | nil => exact hm
  | cons a as ih =>
    exact ih (write_wf hm (h a (by simp)) _) fun b hb => h b (by simp [hb])

/-- Drawing each byte of a list leaves every other byte alone. -/
theorem drawEach_read_other (m : Memory) (draw : Nat) (use : FreeUse) {addrs : List Nat} {b : Nat} (h : b ∉ addrs) :
    (drawEach draw use m addrs).read b = m.read b := by
  induction addrs generalizing m with
  | nil => rfl
  | cons a as ih =>
    rw [List.mem_cons, not_or] at h
    exact (ih (m.write a _) h.2).trans (read_write_other m a _ (Ne.symm h.1))

/-- A byte drawn is the draw of its address. -/
theorem drawEach_read_mem {m : Memory} (hm : m.Pairwise fun c d => c.1 < d.1) (draw : Nat) (use : FreeUse)
    {addrs : List Nat} {b : Nat} (h : b ∈ addrs) : (drawEach draw use m addrs).read b = Config.freeByte draw use b := by
  induction addrs generalizing m with
  | nil => cases h
  | cons a as ih =>
    by_cases hb : b ∈ as
    · exact ih (write_pairwise m hm a _) hb
    · obtain rfl := (List.mem_cons.1 h).resolve_right hb
      refine (drawEach_read_other (m.write b _) draw use hb).trans ?_
      rw [read_write m hm, if_pos rfl]

theorem drawBytes_wf {m : Memory} (hm : m.wf) (draw : Nat) (use : FreeUse) {a n : Nat} (h : a + n ≤ 2 ^ 64) :
    (drawBytes draw use m a n).wf := writeBytes_wf hm (by simpa using h)

theorem reset_mem_wf : State.reset.mem.wf := by decide

end Sys2Proof.Machine
end

