-- ==== Sys2Proof/Laws/State.lean ====
section
/-! SUPPORT. One lemma per field per named update of the state, so that no proof unfolds a record update. -/

namespace Sys2Proof.Machine

@[simp] theorem accept_ops (v : Word) (s : State) : (accept v s).ops = s.ops := rfl
@[simp] theorem accept_status (v : Word) (s : State) : (accept v s).status = { s.status with result := .none, busy := true } := rfl
@[simp] theorem accept_ctx (v : Word) (s : State) : (accept v s).ctx = s.ctx := rfl
@[simp] theorem accept_cmdlat (v : Word) (s : State) : (accept v s).cmdlat = v := rfl
@[simp] theorem accept_scratch (v : Word) (s : State) : (accept v s).scratch = s.scratch := rfl
@[simp] theorem accept_mem (v : Word) (s : State) : (accept v s).mem = s.mem := rfl
@[simp] theorem accept_platform (v : Word) (s : State) : (accept v s).platform = s.platform := rfl
@[simp] theorem accept_sharing (v : Word) (s : State) : (accept v s).sharing = { s.sharing with writes := [], reads := [] } := rfl
@[simp] theorem accept_agenda (v : Word) (s : State) : (accept v s).agenda = s.agenda := rfl
@[simp] theorem accept_readData (v : Word) (s : State) : (accept v s).readData = s.readData := rfl
@[simp] theorem accept_draws (v : Word) (s : State) : (accept v s).draws = s.draws := rfl

@[simp] theorem completeWith_ops (d : List Range) (r : ResultCode) (s : State) : (completeWith d r s).ops = s.ops := rfl
@[simp] theorem completeWith_status (d : List Range) (r : ResultCode) (s : State) : (completeWith d r s).status = { s.status with result := r, busy := false } := rfl
@[simp] theorem completeWith_ctx (d : List Range) (r : ResultCode) (s : State) : (completeWith d r s).ctx = s.ctx := rfl
@[simp] theorem completeWith_cmdlat (d : List Range) (r : ResultCode) (s : State) : (completeWith d r s).cmdlat = s.cmdlat := rfl
@[simp] theorem completeWith_scratch (d : List Range) (r : ResultCode) (s : State) : (completeWith d r s).scratch = Scratch.zero := rfl
@[simp] theorem completeWith_mem (d : List Range) (r : ResultCode) (s : State) : (completeWith d r s).mem = raceDestinations d s := rfl
@[simp] theorem completeWith_platform (d : List Range) (r : ResultCode) (s : State) : (completeWith d r s).platform = s.platform := rfl
@[simp] theorem completeWith_sharing (d : List Range) (r : ResultCode) (s : State) : (completeWith d r s).sharing = { s.sharing with writes := [], reads := [], unseen := d ++ s.sharing.unseen } := rfl
@[simp] theorem completeWith_agenda (d : List Range) (r : ResultCode) (s : State) : (completeWith d r s).agenda = s.agenda := rfl
@[simp] theorem completeWith_readData (d : List Range) (r : ResultCode) (s : State) : (completeWith d r s).readData = s.readData := rfl
@[simp] theorem completeWith_draws (d : List Range) (r : ResultCode) (s : State) : (completeWith d r s).draws = s.draws + 1 := rfl

@[simp] theorem complete_ops (i : Instr) (r : ResultCode) (s : State) : (complete i r s).ops = s.ops := rfl
@[simp] theorem complete_status (i : Instr) (r : ResultCode) (s : State) : (complete i r s).status = { s.status with result := r, busy := false } := rfl
@[simp] theorem complete_ctx (i : Instr) (r : ResultCode) (s : State) : (complete i r s).ctx = s.ctx := rfl
@[simp] theorem complete_cmdlat (i : Instr) (r : ResultCode) (s : State) : (complete i r s).cmdlat = s.cmdlat := rfl
@[simp] theorem complete_scratch (i : Instr) (r : ResultCode) (s : State) : (complete i r s).scratch = Scratch.zero := rfl
@[simp] theorem complete_mem (i : Instr) (r : ResultCode) (s : State) : (complete i r s).mem = raceDestinations (destination i s.ops) s := rfl
@[simp] theorem complete_platform (i : Instr) (r : ResultCode) (s : State) : (complete i r s).platform = s.platform := rfl
@[simp] theorem complete_sharing (i : Instr) (r : ResultCode) (s : State) : (complete i r s).sharing = { s.sharing with writes := [], reads := [], unseen := destination i s.ops ++ s.sharing.unseen } := rfl
@[simp] theorem complete_agenda (i : Instr) (r : ResultCode) (s : State) : (complete i r s).agenda = s.agenda := rfl
@[simp] theorem complete_readData (i : Instr) (r : ResultCode) (s : State) : (complete i r s).readData = s.readData := rfl
@[simp] theorem complete_draws (i : Instr) (r : ResultCode) (s : State) : (complete i r s).draws = s.draws + 1 := rfl

@[simp] theorem completeIllegal_ops (s : State) : (completeIllegal s).ops = s.ops := rfl
@[simp] theorem completeIllegal_status (s : State) : (completeIllegal s).status = { s.status with result := .errIllegalCmd, busy := false } := rfl
@[simp] theorem completeIllegal_ctx (s : State) : (completeIllegal s).ctx = s.ctx := rfl
@[simp] theorem completeIllegal_cmdlat (s : State) : (completeIllegal s).cmdlat = s.cmdlat := rfl
@[simp] theorem completeIllegal_scratch (s : State) : (completeIllegal s).scratch = Scratch.zero := rfl
@[simp] theorem completeIllegal_platform (s : State) : (completeIllegal s).platform = s.platform := rfl
@[simp] theorem completeIllegal_sharing (s : State) : (completeIllegal s).sharing = { s.sharing with writes := [], reads := [] } := rfl
@[simp] theorem completeIllegal_agenda (s : State) : (completeIllegal s).agenda = s.agenda := rfl
@[simp] theorem completeIllegal_readData (s : State) : (completeIllegal s).readData = s.readData := rfl
@[simp] theorem completeIllegal_draws (s : State) : (completeIllegal s).draws = s.draws + 1 := rfl

@[simp] theorem setCtxValid_ops (b : Bool) (s : State) : (setCtxValid b s).ops = s.ops := rfl
@[simp] theorem setCtxValid_status (b : Bool) (s : State) : (setCtxValid b s).status = { s.status with ctxValid := b } := rfl
@[simp] theorem setCtxValid_ctx (b : Bool) (s : State) : (setCtxValid b s).ctx = s.ctx := rfl
@[simp] theorem setCtxValid_cmdlat (b : Bool) (s : State) : (setCtxValid b s).cmdlat = s.cmdlat := rfl
@[simp] theorem setCtxValid_scratch (b : Bool) (s : State) : (setCtxValid b s).scratch = s.scratch := rfl
@[simp] theorem setCtxValid_mem (b : Bool) (s : State) : (setCtxValid b s).mem = s.mem := rfl
@[simp] theorem setCtxValid_platform (b : Bool) (s : State) : (setCtxValid b s).platform = s.platform := rfl
@[simp] theorem setCtxValid_sharing (b : Bool) (s : State) : (setCtxValid b s).sharing = s.sharing := rfl
@[simp] theorem setCtxValid_agenda (b : Bool) (s : State) : (setCtxValid b s).agenda = s.agenda := rfl
@[simp] theorem setCtxValid_readData (b : Bool) (s : State) : (setCtxValid b s).readData = s.readData := rfl
@[simp] theorem setCtxValid_draws (b : Bool) (s : State) : (setCtxValid b s).draws = s.draws := rfl

@[simp] theorem setCtx_ops (c : Ctx) (s : State) : (setCtx c s).ops = s.ops := rfl
@[simp] theorem setCtx_status (c : Ctx) (s : State) : (setCtx c s).status = s.status := rfl
@[simp] theorem setCtx_ctx (c : Ctx) (s : State) : (setCtx c s).ctx = c := rfl
@[simp] theorem setCtx_cmdlat (c : Ctx) (s : State) : (setCtx c s).cmdlat = s.cmdlat := rfl
@[simp] theorem setCtx_scratch (c : Ctx) (s : State) : (setCtx c s).scratch = s.scratch := rfl
@[simp] theorem setCtx_mem (c : Ctx) (s : State) : (setCtx c s).mem = s.mem := rfl
@[simp] theorem setCtx_platform (c : Ctx) (s : State) : (setCtx c s).platform = s.platform := rfl
@[simp] theorem setCtx_sharing (c : Ctx) (s : State) : (setCtx c s).sharing = s.sharing := rfl
@[simp] theorem setCtx_agenda (c : Ctx) (s : State) : (setCtx c s).agenda = s.agenda := rfl
@[simp] theorem setCtx_readData (c : Ctx) (s : State) : (setCtx c s).readData = s.readData := rfl
@[simp] theorem setCtx_draws (c : Ctx) (s : State) : (setCtx c s).draws = s.draws := rfl

@[simp] theorem afterWrite_ops (s : State) (a : Nat) (v : List Byte) : (afterWrite s a v).ops = s.ops := rfl
@[simp] theorem afterWrite_status (s : State) (a : Nat) (v : List Byte) : (afterWrite s a v).status = s.status := rfl
@[simp] theorem afterWrite_ctx (s : State) (a : Nat) (v : List Byte) : (afterWrite s a v).ctx = s.ctx := rfl
@[simp] theorem afterWrite_cmdlat (s : State) (a : Nat) (v : List Byte) : (afterWrite s a v).cmdlat = s.cmdlat := rfl
@[simp] theorem afterWrite_scratch (s : State) (a : Nat) (v : List Byte) : (afterWrite s a v).scratch = s.scratch := rfl
@[simp] theorem afterWrite_mem (s : State) (a : Nat) (v : List Byte) : (afterWrite s a v).mem = s.mem.writeBytes a (destBytes s a v) := rfl
@[simp] theorem afterWrite_platform (s : State) (a : Nat) (v : List Byte) : (afterWrite s a v).platform = s.platform := rfl
@[simp] theorem afterWrite_sharing (s : State) (a : Nat) (v : List Byte) : (afterWrite s a v).sharing = { s.sharing with stale := markStale s a v.length } := rfl
@[simp] theorem afterWrite_agenda (s : State) (a : Nat) (v : List Byte) : (afterWrite s a v).agenda = s.agenda := rfl
@[simp] theorem afterWrite_readData (s : State) (a : Nat) (v : List Byte) : (afterWrite s a v).readData = s.readData := rfl
@[simp] theorem afterWrite_draws (s : State) (a : Nat) (v : List Byte) : (afterWrite s a v).draws = s.draws := rfl

@[simp] theorem resetEngine_ops (s : State) : (resetEngine s).ops = Operands.zero := rfl
@[simp] theorem resetEngine_status (s : State) : (resetEngine s).status = Status.reset := rfl
@[simp] theorem resetEngine_ctx (s : State) : (resetEngine s).ctx = Ctx.zero := rfl
@[simp] theorem resetEngine_cmdlat (s : State) : (resetEngine s).cmdlat = 0 := rfl
@[simp] theorem resetEngine_scratch (s : State) : (resetEngine s).scratch = Scratch.zero := rfl
@[simp] theorem resetEngine_mem (s : State) : (resetEngine s).mem = s.mem := rfl
@[simp] theorem resetEngine_platform (s : State) : (resetEngine s).platform = s.platform := rfl
@[simp] theorem resetEngine_sharing (s : State) : (resetEngine s).sharing = { s.sharing with writes := [], reads := [] } := rfl
@[simp] theorem resetEngine_agenda (s : State) : (resetEngine s).agenda = s.agenda := rfl
@[simp] theorem resetEngine_readData (s : State) : (resetEngine s).readData = s.readData := rfl
@[simp] theorem resetEngine_draws (s : State) : (resetEngine s).draws = s.draws := rfl

@[simp] theorem abortRange_ops (s : State) (r : Range) : (abortRange s r).ops = s.ops := rfl
@[simp] theorem abortRange_status (s : State) (r : Range) : (abortRange s r).status = s.status := rfl
@[simp] theorem abortRange_ctx (s : State) (r : Range) : (abortRange s r).ctx = s.ctx := rfl
@[simp] theorem abortRange_cmdlat (s : State) (r : Range) : (abortRange s r).cmdlat = s.cmdlat := rfl
@[simp] theorem abortRange_scratch (s : State) (r : Range) : (abortRange s r).scratch = s.scratch := rfl
@[simp] theorem abortRange_platform (s : State) (r : Range) : (abortRange s r).platform = s.platform := rfl
@[simp] theorem abortRange_agenda (s : State) (r : Range) : (abortRange s r).agenda = s.agenda := rfl
@[simp] theorem abortRange_readData (s : State) (r : Range) : (abortRange s r).readData = s.readData := rfl
@[simp] theorem abortRange_draws (s : State) (r : Range) : (abortRange s r).draws = s.draws := rfl

@[simp] theorem placeCommand_ops (v : Word) (s : State) : (placeCommand v s).ops = s.ops := rfl
@[simp] theorem placeCommand_status (v : Word) (s : State) : (placeCommand v s).status = { s.status with result := .none, busy := true } := rfl
@[simp] theorem placeCommand_ctx (v : Word) (s : State) : (placeCommand v s).ctx = s.ctx := rfl
@[simp] theorem placeCommand_cmdlat (v : Word) (s : State) : (placeCommand v s).cmdlat = v := rfl
@[simp] theorem placeCommand_scratch (v : Word) (s : State) : (placeCommand v s).scratch = s.scratch := rfl
@[simp] theorem placeCommand_mem (v : Word) (s : State) : (placeCommand v s).mem = s.mem := rfl
@[simp] theorem placeCommand_platform (v : Word) (s : State) : (placeCommand v s).platform = s.platform := rfl
@[simp] theorem placeCommand_sharing (v : Word) (s : State) : (placeCommand v s).sharing = { s.sharing with writes := [], reads := [] } := rfl
@[simp] theorem placeCommand_agenda (v : Word) (s : State) : (placeCommand v s).agenda = .engine :: s.agenda := rfl
@[simp] theorem placeCommand_readData (v : Word) (s : State) : (placeCommand v s).readData = s.readData := rfl
@[simp] theorem placeCommand_draws (v : Word) (s : State) : (placeCommand v s).draws = s.draws := rfl

@[simp] theorem agentStore_ops (c : Bool) (a : Nat) (v : Byte) (s : State) : (agentStore c a v s).ops = s.ops := rfl
@[simp] theorem agentStore_status (c : Bool) (a : Nat) (v : Byte) (s : State) : (agentStore c a v s).status = s.status := rfl
@[simp] theorem agentStore_ctx (c : Bool) (a : Nat) (v : Byte) (s : State) : (agentStore c a v s).ctx = s.ctx := rfl
@[simp] theorem agentStore_cmdlat (c : Bool) (a : Nat) (v : Byte) (s : State) : (agentStore c a v s).cmdlat = s.cmdlat := rfl
@[simp] theorem agentStore_scratch (c : Bool) (a : Nat) (v : Byte) (s : State) : (agentStore c a v s).scratch = s.scratch := rfl
@[simp] theorem agentStore_platform (c : Bool) (a : Nat) (v : Byte) (s : State) : (agentStore c a v s).platform = s.platform := rfl
@[simp] theorem agentStore_agenda (c : Bool) (a : Nat) (v : Byte) (s : State) : (agentStore c a v s).agenda = s.agenda := rfl
@[simp] theorem agentStore_readData (c : Bool) (a : Nat) (v : Byte) (s : State) : (agentStore c a v s).readData = s.readData := rfl

@[simp] theorem agentLoad_ops (c : Bool) (a : Nat) (s : State) : (agentLoad c a s).ops = s.ops := rfl
@[simp] theorem agentLoad_status (c : Bool) (a : Nat) (s : State) : (agentLoad c a s).status = s.status := rfl
@[simp] theorem agentLoad_ctx (c : Bool) (a : Nat) (s : State) : (agentLoad c a s).ctx = s.ctx := rfl
@[simp] theorem agentLoad_cmdlat (c : Bool) (a : Nat) (s : State) : (agentLoad c a s).cmdlat = s.cmdlat := rfl
@[simp] theorem agentLoad_scratch (c : Bool) (a : Nat) (s : State) : (agentLoad c a s).scratch = s.scratch := rfl
@[simp] theorem agentLoad_platform (c : Bool) (a : Nat) (s : State) : (agentLoad c a s).platform = s.platform := rfl
@[simp] theorem agentLoad_agenda (c : Bool) (a : Nat) (s : State) : (agentLoad c a s).agenda = s.agenda := rfl

@[simp] theorem cacheClean_ops (r : Range) (s : State) : (cacheClean r s).ops = s.ops := rfl
@[simp] theorem cacheClean_status (r : Range) (s : State) : (cacheClean r s).status = s.status := rfl
@[simp] theorem cacheClean_ctx (r : Range) (s : State) : (cacheClean r s).ctx = s.ctx := rfl
@[simp] theorem cacheClean_cmdlat (r : Range) (s : State) : (cacheClean r s).cmdlat = s.cmdlat := rfl
@[simp] theorem cacheClean_scratch (r : Range) (s : State) : (cacheClean r s).scratch = s.scratch := rfl
@[simp] theorem cacheClean_platform (r : Range) (s : State) : (cacheClean r s).platform = s.platform := rfl
@[simp] theorem cacheClean_agenda (r : Range) (s : State) : (cacheClean r s).agenda = s.agenda := rfl
@[simp] theorem cacheClean_readData (r : Range) (s : State) : (cacheClean r s).readData = s.readData := rfl
@[simp] theorem cacheClean_draws (r : Range) (s : State) : (cacheClean r s).draws = s.draws + 1 := rfl

@[simp] theorem cacheInvalidate_ops (r : Range) (s : State) : (cacheInvalidate r s).ops = s.ops := rfl
@[simp] theorem cacheInvalidate_status (r : Range) (s : State) : (cacheInvalidate r s).status = s.status := rfl
@[simp] theorem cacheInvalidate_ctx (r : Range) (s : State) : (cacheInvalidate r s).ctx = s.ctx := rfl
@[simp] theorem cacheInvalidate_cmdlat (r : Range) (s : State) : (cacheInvalidate r s).cmdlat = s.cmdlat := rfl
@[simp] theorem cacheInvalidate_scratch (r : Range) (s : State) : (cacheInvalidate r s).scratch = s.scratch := rfl
@[simp] theorem cacheInvalidate_platform (r : Range) (s : State) : (cacheInvalidate r s).platform = s.platform := rfl
@[simp] theorem cacheInvalidate_agenda (r : Range) (s : State) : (cacheInvalidate r s).agenda = s.agenda := rfl
@[simp] theorem cacheInvalidate_readData (r : Range) (s : State) : (cacheInvalidate r s).readData = s.readData := rfl
@[simp] theorem cacheInvalidate_draws (r : Range) (s : State) : (cacheInvalidate r s).draws = s.draws + 1 := rfl

end Sys2Proof.Machine
end

