-- ==== Sys2Proof/Laws/Access.lean ====
section
/-! SUPPORT. What the engine's memory accesses can do: each lemma says once when an access goes ahead and what it answers. -/

namespace Sys2Proof.Machine

/-- When an access goes ahead (R51 to R53, R58). -/
theorem checkAccess_ok_iff {s : State} {k : AccessKind} {a n : Nat} :
    checkAccess s k a n = .ok () ↔
      n = 0 ∨ (a + n ≤ 2 ^ 64 ∧ memAdmits s.platform k a n = true ∧ touchesDevice s.platform a n = false) := by
  unfold checkAccess
  split
  · simp [*]
  · split
    · rename_i h0 hw
      simp only [h0, false_or, reduceCtorEq, false_iff]
      omega
    · split
      · simp [*]
      · split <;> simp_all

/-- How an access stops (R51, R52, R58). -/
theorem checkAccess_error {s : State} {k : AccessKind} {a n : Nat} {e : Stop} (h : checkAccess s k a n = .error e) :
    n ≠ 0 ∧
      ((e = .fault (.busFault a s.cmdlat) ∧ (2 ^ 64 < a + n ∨ memAdmits s.platform k a n = false)) ∨
        (e = .refused (.deviceMemory a) ∧ ¬ (2 ^ 64 < a + n ∨ memAdmits s.platform k a n = false) ∧
          touchesDevice s.platform a n = true)) := by
  unfold checkAccess at h
  split at h
  · cases h
  · rename_i h0
    refine ⟨h0, ?_⟩
    split at h
    · rename_i hw; cases h; exact Or.inl ⟨rfl, Or.inl hw⟩
    · rename_i hw
      split at h
      · rename_i hm; cases h; exact Or.inl ⟨rfl, Or.inr hm⟩
      · rename_i hm
        split at h
        · rename_i hd; cases h; exact Or.inr ⟨rfl, not_or.2 ⟨hw, hm⟩, hd⟩
        · cases h

theorem memRead_ok_iff {s : State} {k a n : Nat} {d : List Byte} :
    memRead s k a n = .ok d ↔ checkAccess s .read a n = .ok () ∧ d = engineBytes s k a n := by
  unfold memRead
  cases h : checkAccess s .read a n with
  | ok u => simp [eq_comm]
  | error e => simp

theorem memRead_error_iff {s : State} {k a n : Nat} {e : Stop} :
    memRead s k a n = .error e ↔ checkAccess s .read a n = .error e := by
  unfold memRead
  cases h : checkAccess s .read a n with
  | ok u => simp
  | error e => simp

theorem memWrite_ok_iff {s t : State} {a : Nat} {v : List Byte} :
    memWrite s a v = .ok t ↔ checkAccess s .write a v.length = .ok () ∧ t = afterWrite s a v := by
  unfold memWrite
  cases h : checkAccess s .write a v.length with
  | ok u => simp [eq_comm]
  | error e => simp

theorem memWrite_error_iff {s : State} {a : Nat} {v : List Byte} {e : Stop} :
    memWrite s a v = .error e ↔ checkAccess s .write a v.length = .error e := by
  unfold memWrite
  cases h : checkAccess s .write a v.length with
  | ok u => simp
  | error e => simp

@[simp] theorem stop_outcome_ne_next (e : Stop) (t : State) : e.outcome ≠ .next t := by cases e <;> simp [Stop.outcome]

/-- What the final write of a command can do when it answers a next state (R38). -/
theorem writeAndComplete_next {i : Instr} {a : Nat} {v : List Byte} {s t : State}
    (h : writeAndComplete i a v s = .next t) :
    checkAccess s .write a v.length = .ok () ∧ t = complete i .ok (afterWrite s a v) := by
  unfold writeAndComplete at h
  split at h
  · exact absurd h (stop_outcome_ne_next _ _)
  · rename_i s' hw
    obtain ⟨hc, rfl⟩ := memWrite_ok_iff.1 hw
    exact ⟨hc, by simpa using h.symm⟩

/-- The final write of a command goes ahead where its access passes its check. -/
theorem writeAndComplete_of_check {i : Instr} {a : Nat} {v : List Byte} {s : State}
    (h : checkAccess s .write a v.length = .ok ()) :
    writeAndComplete i a v s = .next (complete i .ok (afterWrite s a v)) := by
  simp only [writeAndComplete, memWrite_ok_iff.2 ⟨h, rfl⟩]

/-- The final write of a command stops where its access does. -/
theorem writeAndComplete_of_error {i : Instr} {a : Nat} {v : List Byte} {s : State} {e : Stop}
    (h : checkAccess s .write a v.length = .error e) : writeAndComplete i a v s = e.outcome := by
  simp only [writeAndComplete, memWrite_error_iff.2 h]

@[simp] theorem engineBytes_length (s : State) (k a n : Nat) : (engineBytes s k a n).length = n := by
  simp [engineBytes]

@[simp] theorem destBytes_length (s : State) (a : Nat) (v : List Byte) : (destBytes s a v).length = v.length := by
  induction v generalizing a with
  | nil => rfl
  | cons x v ih => simp [destBytes, ih]

/-- A write inside system memory keeps the canonical form. -/
theorem afterWrite_wf {s : State} {a : Nat} {v : List Byte} (hm : s.mem.wf)
    (h : checkAccess s .write a v.length = .ok ()) : (afterWrite s a v).mem.wf := by
  rw [afterWrite_mem]
  rcases checkAccess_ok_iff.1 h with h0 | h1
  · cases v with
    | nil => exact hm
    | cons x v => simp at h0
  · exact writeBytes_wf hm (by simpa using h1.1)

/-- An engine write leaves every byte outside its range alone. -/
theorem afterWrite_read_outside {s : State} {a : Nat} {v : List Byte} {b : Nat}
    (h : ¬ (a ≤ b ∧ b < a + v.length)) : (afterWrite s a v).mem.read b = s.mem.read b := by
  rw [afterWrite_mem, read_writeBytes_outside _ _ _ (by simpa using h)]

/-- The bytes an engine write leaves depend only on the notes of other agents' accesses and the draw number. -/
theorem destBytes_congr {s u : State} (h : u.sharing = s.sharing) (h' : u.draws = s.draws) (a : Nat) (v : List Byte) :
    destBytes u a v = destBytes s a v := by
  induction v generalizing a with
  | nil => rfl
  | cons x v ih => rw [destBytes, destBytes, destByte, destByte, touched, touched, h, h', ih]

/-- The accesses to come depend only on the turns to come, the place of the window and the destinations in use. -/
theorem upcoming_congr {s u : State} (hp : u.platform = s.platform) (ha : u.agenda = s.agenda)
    (hl : usedDestinations u = usedDestinations s) : upcoming u = upcoming s := by
  have hacc : ∀ a w o, accesses u a w o = accesses s a w o := fun a w o => by
    rw [accesses, accesses, windowOffset, windowOffset, windowBase, windowBase, hp]
  have key : ∀ ts b, turnsInUse u b ts = turnsInUse s b ts := by
    intro ts
    induction ts with
    | nil => exact fun _ => rfl
    | cons t ts ih => intro b; cases t <;> simp only [turnsInUse, hacc, ih]
  rw [upcoming, upcoming, ha, hl, key]

/-- The engine's own turn is no access of another agent. -/
theorem upcoming_engine {s : State} {rest : List Turn} (h : s.agenda = .engine :: rest) :
    upcoming { s with agenda := rest } = upcoming s := by
  have key : ∀ ts b, turnsInUse { s with agenda := rest } b ts = turnsInUse s b ts := by
    intro ts
    induction ts with
    | nil => exact fun _ => rfl
    | cons t ts ih => intro b; cases t <;> simp only [turnsInUse, ih] <;> rfl
  simp only [upcoming, h, turnsInUse, key]
  rfl

/-- The bytes the engine reads depend only on memory, the platform, the notes of other agents' accesses, the accesses to come,
the destinations in use and the draw number. -/
theorem engineBytes_congr {s u : State} (hm : u.mem = s.mem) (hp : u.platform = s.platform) (h : u.sharing = s.sharing)
    (hu : upcoming u = upcoming s) (hl : usedDestinations u = usedDestinations s) (h' : u.draws = s.draws) (k a n : Nat) :
    engineBytes u k a n = engineBytes s k a n := by
  have hr : ∀ b, readRaces u b = readRaces s b := fun b => by simp only [readRaces, hu, hl, hp, h]
  have hb : ∀ b, engineByte u k b = engineByte s k b := fun b => by rw [engineByte, engineByte, hr, hm, h']
  simp only [engineBytes, hb]

/-- A read of the engine depends on what `engineBytes_congr` names, and on the latch, which a fault reports. -/
theorem memRead_congr {s u : State} (hm : u.mem = s.mem) (hp : u.platform = s.platform) (h : u.sharing = s.sharing)
    (hu : upcoming u = upcoming s) (hl : usedDestinations u = usedDestinations s) (h' : u.draws = s.draws)
    (hc : u.cmdlat = s.cmdlat) (k a n : Nat) : memRead u k a n = memRead s k a n := by
  simp only [memRead, checkAccess, hp, hc, engineBytes_congr hm hp h hu hl h']

/-- While the duties of R62 and R66 are kept, the engine reads the byte of memory. -/
theorem engineByte_quiet {s : State} (hw : s.sharing.writes = []) (hr : s.sharing.reads = []) (hu : upcoming s = [])
    (hd : s.platform.dmaCoherent = true ∨ s.sharing.dirty = []) (k a : Nat) : engineByte s k a = s.mem.read a := by
  have h : readRaces s a = false := by
    simp only [readRaces, hw, hr, hu]
    rcases hd with hd | hd <;> simp [hd]
  rw [engineByte, h]
  rfl

@[simp] theorem touched_afterWrite (s : State) (a : Nat) (v : List Byte) : touched (afterWrite s a v) = touched s := rfl

@[simp] theorem touched_setCtx (c : Ctx) (s : State) : touched (setCtx c s) = touched s := rfl

@[simp] theorem touched_setCtxValid (b : Bool) (s : State) : touched (setCtxValid b s) = touched s := rfl

/-- With no note of another agent's access, no byte has been touched. -/
theorem touched_quiet {s : State} (hw : s.sharing.writes = []) (hr : s.sharing.reads = []) : touched s = [] := by
  rw [touched, hw, hr]
  rfl

/-- While no other agent has touched a byte since acceptance, an engine write leaves what it writes. -/
theorem destBytes_quiet {s : State} (hw : s.sharing.writes = []) (hr : s.sharing.reads = []) (a : Nat) (v : List Byte) :
    destBytes s a v = v := by
  induction v generalizing a with
  | nil => rfl
  | cons x v ih => simp [destBytes, destByte, touched_quiet hw hr, ih]

/-- What memory holds in the range of an engine write. -/
theorem afterWrite_read_inside {s : State} {a : Nat} {v : List Byte} (hm : s.mem.wf) (hw : s.sharing.writes = [])
    (hr : s.sharing.reads = []) {k : Nat} (hk : k < v.length) :
    (afterWrite s a v).mem.read (a + k) = v.getD k 0 := by
  rw [afterWrite_mem, destBytes_quiet hw hr, read_writeBytes _ hm.1, if_pos (by omega), Nat.add_sub_cancel_left]

/-- What a completion leaves in memory depends on the notes of other agents' accesses: with none, all of it is as before. -/
theorem raceDestinations_quiet {s : State} (dests : List Range) (h : touched s = []) : raceDestinations dests s = s.mem := by
  rw [raceDestinations, h]
  rfl

/-- A completion with no destination leaves memory alone. -/
@[simp] theorem raceDestinations_nil (s : State) : raceDestinations [] s = s.mem := by
  rw [raceDestinations, List.filter_eq_nil_iff.2 (by simp [inRanges])]
  rfl

@[simp] theorem completeIllegal_mem (s : State) : (completeIllegal s).mem = s.mem := raceDestinations_nil s

/-- A completion leaves every byte alone that no agent has touched, and every byte outside the destinations. -/
theorem raceDestinations_read_other {s : State} {dests : List Range} {a : Nat}
    (h : ¬ (inRanges dests a = true ∧ a ∈ touched s)) : (raceDestinations dests s).read a = s.mem.read a :=
  drawEach_read_other _ _ _ fun hm => h (List.mem_filter.1 hm).symm

/-- A completion leaves a draw in a touched byte of a destination (R62). -/
theorem raceDestinations_read_raced {s : State} {dests : List Range} {a : Nat} (hm : s.mem.wf)
    (hd : inRanges dests a = true) (ht : a ∈ touched s) :
    (raceDestinations dests s).read a = Config.freeByte s.draws .engineWrite a :=
  drawEach_read_mem hm.1 _ _ (List.mem_filter.2 ⟨ht, hd⟩)

/-- A completion keeps the canonical form. -/
theorem raceDestinations_wf {s : State} (dests : List Range) (hm : s.mem.wf) (h : ∀ a ∈ touched s, a < 2 ^ 64) :
    (raceDestinations dests s).wf :=
  drawEach_wf hm _ _ fun a ha => h a (List.mem_filter.1 ha).1

/-- The bytes of a command's destination (R74). -/
theorem inRanges_destination {i : Instr} {o : Operands} {a : Nat} :
    inRanges (destination i o) a = true ↔ o.dstAddr ≤ a ∧ a < o.dstAddr + destLength i := by
  by_cases h : destLength i = 0
  · rw [destination, if_pos h, h]
    simp [inRanges]
  · rw [destination, if_neg h]
    simp [inRanges, inRange]

/-- The destinations in use while a command runs (R62). -/
theorem inRanges_usedDestinations {s : State} {a : Nat} : inRanges (usedDestinations s) a = true ↔
    (∃ i, decode s.cmdlat = .ok i ∧ s.ops.dstAddr ≤ a ∧ a < s.ops.dstAddr + destLength i) ∨
      inRanges s.sharing.unseen a = true := by
  have h : inRanges (usedDestinations s) a = (inRanges (latchedDestination s) a || inRanges s.sharing.unseen a) := by
    simp [usedDestinations, inRanges]
  rw [h, Bool.or_eq_true, latchedDestination]
  cases decode s.cmdlat with
  | ok i => simp [inRanges_destination]
  | error e => simp [inRanges]

/-- A stop while the fragments are read is that of the first fragment that does not pass its check (R56, R208). -/
theorem readFragments_error {s : State} {table : List Byte} {m k : Nat} {e : Stop}
    (h : readFragments s table k m = .error e) :
    ∃ j < m, (∀ x < j, checkAccess s .read (fragAddr table (k + x)) (fragLen table (k + x)) = .ok ()) ∧
      checkAccess s .read (fragAddr table (k + j)) (fragLen table (k + j)) = .error e := by
  induction m generalizing k with
  | zero => cases h
  | succ m ih =>
    rw [readFragments] at h
    split at h
    · rename_i hr
      cases h
      exact ⟨0, by omega, by omega, memRead_error_iff.1 hr⟩
    · rename_i hok
      split at h
      · rename_i hr
        cases h
        obtain ⟨j, hj, hb, he⟩ := ih hr
        refine ⟨j + 1, by omega, fun x hx => ?_, by rw [Nat.add_comm j, ← Nat.add_assoc]; exact he⟩
        cases x with
        | zero => exact (memRead_ok_iff.1 hok).1
        | succ x =>
          rw [Nat.add_comm x, ← Nat.add_assoc]
          exact hb x (by omega)
      · cases h

/-- A stop of `ReadFrags` is that of the table, or of the first fragment that does not pass its check (R56, R208). -/
theorem readFrags_error {s : State} {tab n : Nat} {e : Stop} (h : readFrags s tab n = .error e) :
    checkAccess s .read tab (16 * n) = .error e ∨
      ∃ table, table = engineBytes s 1 tab (16 * n) ∧ checkAccess s .read tab (16 * n) = .ok () ∧
        ∃ j < n, (∀ x < j, checkAccess s .read (fragAddr table x) (fragLen table x) = .ok ()) ∧
          checkAccess s .read (fragAddr table j) (fragLen table j) = .error e := by
  unfold readFrags at h
  split at h
  · cases h
  · split at h
    · rename_i hr
      cases h
      exact .inl (memRead_error_iff.1 hr)
    · rename_i table hr
      obtain ⟨hc, ht⟩ := memRead_ok_iff.1 hr
      have hf := readFragments_error h
      simp only [Nat.zero_add] at hf
      exact .inr ⟨table, ht, hc, hf⟩

/-- `ReadFrags` depends only on what the reads answer. -/
theorem readFrags_congr {s u : State} (h : ∀ k a n, memRead u k a n = memRead s k a n) (tab n : Nat) :
    readFrags u tab n = readFrags s tab n := by
  have frags : ∀ table m k, readFragments u table k m = readFragments s table k m := by
    intro table m
    induction m with
    | zero => exact fun _ => rfl
    | succ m ih => exact fun k => by simp only [readFragments, h, ih]
  simp only [readFrags, h, frags]

end Sys2Proof.Machine
end

