-- ==== Sys2Proof/Laws/Sha1.lean ====
section
/-! SUPPORT. What Absorb does to a stream: `absorb_h`, `absorb_pending`, `absorb_count` and `absorb_fill` say everything a
later hash can see of it (40_sha1_core.md R109 to R112), so no proof unfolds `absorb`. -/

namespace Sys2Proof.Machine

@[simp] theorem toBytes_toList_of_length {n : Nat} {s : List Byte} (h : s.length = n) : (toBytes n s).toList = s := by
  subst h
  simp [toBytes, Vector.toList]

theorem splice_toList (b : Vector Byte 64) {j : Nat} {d : List Byte} (h : j + d.length ≤ 64) :
    (splice b j d).toList = b.toList.take j ++ d ++ b.toList.drop (j + d.length) := by
  apply toBytes_toList_of_length
  simp
  omega

theorem countLo_toNat (c : Ctx) : c.countLo.toNat = c.count.toNat % 2 ^ 32 := by
  simp [Ctx.countLo, BitVec.extractLsb'_toNat]

theorem countHi_toNat (c : Ctx) : c.countHi.toNat = c.count.toNat / 2 ^ 32 := by
  have := c.count.isLt
  simp only [Ctx.countHi, BitVec.extractLsb'_toNat, Nat.shiftRight_eq_div_pow]
  omega

/-- The fill level from the bit count. -/
theorem fill_eq (c : Ctx) : c.fill = c.count.toNat / 8 % 64 := by
  simp only [Ctx.fill, BitVec.extractLsb'_toNat, countLo_toNat, Nat.shiftRight_eq_div_pow]
  omega

theorem fill_lt (c : Ctx) : c.fill < 64 := by rw [fill_eq]; omega

theorem addCount_toNat (x : BitVec 64) (n : Nat) : (addCount x n).toNat = (x.toNat + 8 * n) % 2 ^ 64 := by
  simp [addCount]

/-- The bytes pending at the front of the buffer (R109). -/
def pending (c : Ctx) : List Byte := c.buf.toList.take c.fill

@[simp] theorem pending_length (c : Ctx) : (pending c).length = c.fill := by
  have := fill_lt c
  simp [pending]
  omega

@[simp] theorem absorb_count (c : Ctx) (d : List Byte) : (absorb c d).count = addCount c.count d.length := by
  simp only [absorb]
  split <;> rfl

/-- The fill level after an update. -/
theorem absorb_fill (c : Ctx) (d : List Byte) : (absorb c d).fill = (c.fill + d.length) % 64 := by
  simp only [fill_eq, absorb_count, addCount_toNat]
  have := c.count.isLt
  omega

theorem first_window (c : Ctx) {d : List Byte} (h : 63 < c.fill + d.length) :
    (splice c.buf c.fill (d.take (64 - c.fill))).toList = (pending c ++ d).take 64 := by
  have hf := fill_lt c
  have hl : (d.take (64 - c.fill)).length = 64 - c.fill := by simp; omega
  rw [splice_toList _ (by omega), hl, List.take_append, pending_length,
    List.take_of_length_le (by simp; omega : (pending c).length ≤ 64)]
  rw [show c.fill + (64 - c.fill) = 64 by omega, List.drop_of_length_le (by simp), List.append_nil]
  rfl

/-- The state words after an update: every whole block of the pending bytes and the data is compressed, in order. -/
theorem absorb_h (c : Ctx) (d : List Byte) :
    (absorb c d).h = compressWindows ((c.fill + d.length) / 64) c.h (pending c ++ d) := by
  have hf := fill_lt c
  simp only [absorb]
  split
  · rename_i h
    simp only [first_window c h, List.length_drop]
    rw [show (c.fill + d.length) / 64 = (d.length - (64 - c.fill)) / 64 + 1 by omega, compressWindows]
    congr 1
    rw [List.drop_append, pending_length,
      List.drop_of_length_le (show (pending c).length ≤ 64 by rw [pending_length]; omega), List.nil_append]
  · rename_i h
    rw [show (c.fill + d.length) / 64 = 0 by omega]
    rfl

/-- The pending bytes after an update: what the whole blocks leave over. -/
theorem absorb_pending (c : Ctx) (d : List Byte) :
    pending (absorb c d) = (pending c ++ d).drop (64 * ((c.fill + d.length) / 64)) := by
  have hf := fill_lt c
  rw [pending, absorb_fill]
  simp only [absorb]
  split
  · rename_i h
    have hl : ((d.drop (64 - c.fill)).drop (64 * ((d.drop (64 - c.fill)).length / 64))).length =
        (c.fill + d.length) % 64 := by simp; omega
    rw [splice_toList _ (by omega), List.take_zero, List.nil_append, List.take_append_of_le_length (by omega),
      List.take_of_length_le (by omega), List.drop_drop, List.drop_append, pending_length,
      List.drop_of_length_le (show (pending c).length ≤ _ by rw [pending_length]; omega), List.nil_append]
    congr 1
    simp only [List.length_drop]
    omega
  · rename_i h
    rw [splice_toList _ (by omega), show (c.fill + d.length) / 64 = 0 by omega,
      show (c.fill + d.length) % 64 = c.fill + d.length by omega, List.take_append_of_le_length (by simp; omega),
      List.take_of_length_le (by simp)]
    rfl

/-- Compressing `m + n` windows is compressing `m`, then `n` from where they end. -/
theorem compressWindows_add (m n : Nat) (h : HashWords) (x : List Byte) :
    compressWindows (m + n) h x = compressWindows n (compressWindows m h x) (x.drop (64 * m)) := by
  induction m generalizing h x with
  | zero => simp [compressWindows]
  | succ m ih =>
    rw [show m + 1 + n = m + n + 1 by omega, compressWindows, ih, compressWindows, List.drop_drop]
    congr 2
    omega

/-- Only the windows compressed matter. -/
theorem compressWindows_append (n : Nat) (h : HashWords) {x : List Byte} (y : List Byte) (hx : 64 * n ≤ x.length) :
    compressWindows n h (x ++ y) = compressWindows n h x := by
  induction n generalizing h x with
  | zero => rfl
  | succ n ih =>
    rw [compressWindows, compressWindows, List.take_append_of_le_length (by omega),
      List.drop_append_of_le_length (by omega), ih _ (by simp; omega)]

@[simp] theorem be32bytes_length (w : Word) : (be32bytes w).length = 4 := rfl

@[simp] theorem countBytes_length (c : Ctx) : (countBytes c).length = 8 := by simp [countBytes]

@[simp] theorem digestBytes_length (h : HashWords) : (digestBytes h).length = 20 := by simp [digestBytes]

@[simp] theorem finish_length (c : Ctx) : (finish c).1.length = 20 := by simp [finish]

@[simp] theorem finish_ctx (c : Ctx) : (finish c).2 = Ctx.zero := rfl

@[simp] theorem sha1_length (frags : List (List Byte)) : (sha1 frags).length = 20 := by simp [sha1]

@[simp] theorem hmacFn_length (key : List Byte) (frags : List (List Byte)) : (hmacFn key frags).length = 20 := by simp [hmacFn]

@[simp] theorem micOf_length (key frame : List Byte) : (micOf key frame).length = 16 := by
  simp [micOf]

@[simp] theorem zeros_length (n : Nat) : (zeros n).length = n := by simp [zeros]

end Sys2Proof.Machine
end

