-- ==== Sys2Proof/Laws/Exec.lean ====
section
/-! SUPPORT. What each command can do when it answers a next state: one inversion lemma per meaning, from which every frame
and invariant follows without unfolding the meaning. Then where a command stops: `exec_next_or_stops` names the access. -/

namespace Sys2Proof.Machine

/-- What SHA1_UPDATE can do (R131). -/
theorem execSha1Update_next {s t : State} (h : execSha1Update s = .next t) :
    (s.status.ctxValid = true ∧ checkAccess s .read s.ops.srcAddr s.ops.srcLen.toNat = .ok () ∧
      t = complete .sha1Update .ok (setCtx (absorb s.ctx (engineBytes s 1 s.ops.srcAddr s.ops.srcLen.toNat)) s)) ∨
    (s.status.ctxValid = false ∧ t = complete .sha1Update .errSequence s) := by
  unfold execSha1Update at h
  split at h
  · rename_i hv
    split at h
    · exact absurd h (stop_outcome_ne_next _ _)
    · rename_i d hd
      obtain ⟨hc, rfl⟩ := memRead_ok_iff.1 hd
      exact .inl ⟨hv, hc, by simpa using h.symm⟩
  · rename_i hv
    exact .inr ⟨by simpa using hv, by simpa using h.symm⟩

/-- What SHA1_FINAL can do (R132). -/
theorem execSha1Final_next {s t : State} (h : execSha1Final s = .next t) :
    (s.status.ctxValid = true ∧ checkAccess s .write s.ops.dstAddr 20 = .ok () ∧
      t = complete .sha1Final .ok
        (afterWrite (setCtxValid false (setCtx Ctx.zero s)) s.ops.dstAddr (finish s.ctx).1)) ∨
    (s.status.ctxValid = false ∧ t = complete .sha1Final .errSequence s) := by
  unfold execSha1Final at h
  split at h
  · rename_i hv
    obtain ⟨hc, ht⟩ := writeAndComplete_next h
    rw [finish_length] at hc
    exact .inl ⟨hv, hc, ht⟩
  · rename_i hv
    exact .inr ⟨by simpa using hv, by simpa using h.symm⟩

/-- What SHA1_VECTOR can do (R133). -/
theorem execSha1Vector_next {s t : State} (h : execSha1Vector s = .next t) :
    ∃ frags, readFrags s s.ops.srcAddr s.ops.srcLen.toNat = .ok frags ∧
      checkAccess s .write s.ops.dstAddr 20 = .ok () ∧
      t = complete .sha1Vector .ok (afterWrite s s.ops.dstAddr (sha1 frags)) := by
  unfold execSha1Vector at h
  split at h
  · exact absurd h (stop_outcome_ne_next _ _)
  · rename_i frags hf
    obtain ⟨hc, ht⟩ := writeAndComplete_next h
    rw [sha1_length] at hc
    exact ⟨frags, hf, hc, ht⟩

/-- What HMAC_VECTOR can do (R156). -/
theorem execHmacVector_next {s t : State} (h : execHmacVector s = .next t) :
    (5 < s.ops.srcLen.toNat ∧ t = complete .hmacVector .errFragCount s) ∨
    (s.ops.srcLen.toNat ≤ 5 ∧ checkAccess s .read s.ops.keyAddr s.ops.keyLen.toNat = .ok () ∧
      ∃ frags, readFrags s s.ops.srcAddr s.ops.srcLen.toNat = .ok frags ∧
        checkAccess s .write s.ops.dstAddr 20 = .ok () ∧
        t = complete .hmacVector .ok
          (afterWrite s s.ops.dstAddr (hmacFn (engineBytes s 0 s.ops.keyAddr s.ops.keyLen.toNat) frags))) := by
  unfold execHmacVector at h
  split at h
  · rename_i hn
    exact .inl ⟨hn, by simpa using h.symm⟩
  · rename_i hn
    split at h
    · exact absurd h (stop_outcome_ne_next _ _)
    · rename_i key hk
      obtain ⟨hck, rfl⟩ := memRead_ok_iff.1 hk
      split at h
      · exact absurd h (stop_outcome_ne_next _ _)
      · rename_i frags hf
        obtain ⟨hc, ht⟩ := writeAndComplete_next h
        rw [hmacFn_length] at hc
        exact .inr ⟨by omega, hck, frags, hf, hc, ht⟩

/-- What HMAC can do (R157). -/
theorem execHmac_next {s t : State} (h : execHmac s = .next t) :
    checkAccess s .read s.ops.keyAddr s.ops.keyLen.toNat = .ok () ∧
      checkAccess s .read s.ops.srcAddr s.ops.srcLen.toNat = .ok () ∧
      checkAccess s .write s.ops.dstAddr 20 = .ok () ∧
      t = complete .hmac .ok (afterWrite s s.ops.dstAddr
        (hmacFn (engineBytes s 0 s.ops.keyAddr s.ops.keyLen.toNat)
          [engineBytes s 1 s.ops.srcAddr s.ops.srcLen.toNat])) := by
  unfold execHmac at h
  split at h
  · exact absurd h (stop_outcome_ne_next _ _)
  · rename_i key hk
    obtain ⟨hck, rfl⟩ := memRead_ok_iff.1 hk
    split at h
    · exact absurd h (stop_outcome_ne_next _ _)
    · rename_i data hs
      obtain ⟨hcs, rfl⟩ := memRead_ok_iff.1 hs
      obtain ⟨hc, ht⟩ := writeAndComplete_next h
      rw [hmacFn_length] at hc
      exact ⟨hck, hcs, hc, ht⟩

/-- The check of an access does not depend on what an engine write changed. -/
@[simp] theorem checkAccess_afterWrite (s : State) (k : AccessKind) (a n b : Nat) (v : List Byte) :
    checkAccess (afterWrite s b v) k a n = checkAccess s k a n := rfl

/-- What the MIC algorithm can do (R170, R172). -/
theorem hashFrame_next {s t : State} (h : hashFrame s = .next t) :
    checkAccess s .read s.ops.keyAddr s.ops.keyLen.toNat = .ok () ∧
      checkAccess s .read s.ops.srcAddr s.ops.srcLen.toNat = .ok () ∧
      checkAccess s .write s.ops.dstAddr 16 = .ok () ∧
      t = complete .eapolMic .ok (afterWrite s s.ops.dstAddr
        (micOf (engineBytes s 0 s.ops.keyAddr s.ops.keyLen.toNat)
          (engineBytes s 1 s.ops.srcAddr s.ops.srcLen.toNat))) := by
  unfold hashFrame at h
  split at h
  · exact absurd h (stop_outcome_ne_next _ _)
  · rename_i key hk
    obtain ⟨hck, rfl⟩ := memRead_ok_iff.1 hk
    split at h
    · exact absurd h (stop_outcome_ne_next _ _)
    · rename_i data hs
      obtain ⟨hcs, rfl⟩ := memRead_ok_iff.1 hs
      obtain ⟨hc, ht⟩ := writeAndComplete_next h
      rw [micOf_length] at hc
      exact ⟨hck, hcs, hc, ht⟩

/-- What EAPOL_MIC can do (R170): `z` is the state after the zero write. -/
theorem execEapolMic_next {s t z : State} (hz : z = afterWrite s s.ops.dstAddr (zeros 16))
    (h : execEapolMic s = .next t) :
    checkAccess s .write s.ops.dstAddr 16 = .ok () ∧
    ((s.ops.version = 2 ∧ checkAccess s .read s.ops.keyAddr s.ops.keyLen.toNat = .ok () ∧
      checkAccess s .read s.ops.srcAddr s.ops.srcLen.toNat = .ok () ∧
      t = complete .eapolMic .ok (afterWrite z s.ops.dstAddr
        (micOf (engineBytes z 0 s.ops.keyAddr s.ops.keyLen.toNat)
          (engineBytes z 1 s.ops.srcAddr s.ops.srcLen.toNat)))) ∨
     (s.ops.version ≠ 2 ∧ t = complete .eapolMic .errVersion z)) := by
  unfold execEapolMic at h
  cases hd : memWrite s s.ops.dstAddr (zeros 16) with
  | error e =>
    rw [hd] at h
    exact absurd h (stop_outcome_ne_next _ _)
  | ok s1 =>
    rw [hd] at h
    dsimp only at h
    obtain ⟨hc, h1⟩ := memWrite_ok_iff.1 hd
    rw [zeros_length] at hc
    rw [← hz] at h1
    subst h1
    have ho : s1.ops = s.ops := by rw [hz, afterWrite_ops]
    have hk : ∀ k a n, checkAccess s1 k a n = checkAccess s k a n := fun k a n => by rw [hz, checkAccess_afterWrite]
    refine ⟨hc, ?_⟩
    split at h
    · rename_i hv
      obtain ⟨h1, h2, -, h4⟩ := hashFrame_next h
      rw [ho] at hv h1 h2 h4
      rw [hk] at h1 h2
      exact .inl ⟨hv, h1, h2, h4⟩
    · rename_i hv
      rw [ho] at hv
      exact .inr ⟨hv, by simpa using h.symm⟩

/-- The MIC algorithm where its accesses pass their checks. -/
theorem hashFrame_of_checks {s : State} (hk : checkAccess s .read s.ops.keyAddr s.ops.keyLen.toNat = .ok ())
    (hs : checkAccess s .read s.ops.srcAddr s.ops.srcLen.toNat = .ok ())
    (hd : checkAccess s .write s.ops.dstAddr 16 = .ok ()) :
    hashFrame s = .next (complete .eapolMic .ok (afterWrite s s.ops.dstAddr
      (micOf (engineBytes s 0 s.ops.keyAddr s.ops.keyLen.toNat)
        (engineBytes s 1 s.ops.srcAddr s.ops.srcLen.toNat)))) := by
  simp only [hashFrame, memRead_ok_iff.2 ⟨hk, rfl⟩, memRead_ok_iff.2 ⟨hs, rfl⟩]
  exact writeAndComplete_of_check (by rw [micOf_length]; exact hd)

/-- EAPOL_MIC where its zero write passes its check: `z` is the state after the zero write. -/
theorem execEapolMic_of_check {s z : State} (hz : z = afterWrite s s.ops.dstAddr (zeros 16))
    (hd : checkAccess s .write s.ops.dstAddr 16 = .ok ()) :
    execEapolMic s = if s.ops.version = 2 then hashFrame z else .next (complete .eapolMic .errVersion z) := by
  have hw : memWrite s s.ops.dstAddr (zeros 16) = .ok z := memWrite_ok_iff.2 ⟨by rw [zeros_length]; exact hd, hz⟩
  have ho : z.ops = s.ops := by rw [hz, afterWrite_ops]
  simp only [execEapolMic, hw, ho]

/-- An access of a command that does not pass its check, every access before it passing: the command stops there (R208). -/
abbrev StopsThere (i : Instr) (s : State) (o : Host.Outcome State Fault Refusal) : Prop :=
  ∃ x e, Reaches i s x ∧ checkAccess s x.kind x.addr x.len = .error e ∧ o = e.outcome

/-- The accesses a command makes depend on the operand registers, CTX_VALID and the table it reads. -/
theorem commandAccesses_congr {s u : State} (ho : u.ops = s.ops) (hv : u.status = s.status)
    (hb : ∀ k a n, engineBytes u k a n = engineBytes s k a n) (i : Instr) : commandAccesses i u = commandAccesses i s := by
  have hf : fragmentRead u = fragmentRead s := funext fun k => by simp only [fragmentRead, tableBytes, ho, hb]
  cases i <;> simp only [commandAccesses, fragmentReads, hf, ho, hv]

/-- The first access of a list that does not pass its check is one the command reaches. -/
theorem stopsThere_of_accesses {i : Instr} {s : State} {before after : List EngineAccess} {x : EngineAccess} {e : Stop}
    {o : Host.Outcome State Fault Refusal} (h : commandAccesses i s = before ++ x :: after)
    (hb : ∀ y ∈ before, Admitted s y.kind y.addr y.len) (hx : checkAccess s x.kind x.addr x.len = .error e)
    (ho : o = e.outcome) : StopsThere i s o := ⟨x, e, ⟨before, after, h, hb⟩, hx, ho⟩

/-- A stop of `ReadFrags` is that of the first of its reads that does not pass its check. -/
theorem readFrags_stop {s : State} {e : Stop} (h : readFrags s s.ops.srcAddr s.ops.srcLen.toNat = .error e) :
    ∃ before x after, fragmentReads s = before ++ x :: after ∧ (∀ y ∈ before, Admitted s y.kind y.addr y.len) ∧
      checkAccess s x.kind x.addr x.len = .error e := by
  rcases readFrags_error h with hc | ⟨table, rfl, hc, j, hj, hb, he⟩
  · exact ⟨[], _, _, rfl, by simp, hc⟩
  · have hs : List.range s.ops.srcLen.toNat =
        List.range j ++ j :: (List.range (s.ops.srcLen.toNat - j - 1)).map (j + 1 + ·) := by
      conv_lhs => rw [show s.ops.srcLen.toNat = j + (s.ops.srcLen.toNat - j - 1 + 1) by omega]
      rw [List.range_add, List.range_succ_eq_map, List.map_cons, List.map_map, Nat.add_zero]
      congr 3
      funext x
      simp only [Function.comp]
      omega
    refine ⟨⟨.read, s.ops.srcAddr, 16 * s.ops.srcLen.toNat⟩ :: (List.range j).map (fragmentRead s), fragmentRead s j,
      _, by rw [fragmentReads, hs, List.map_append, List.map_cons, List.cons_append], fun y hy => ?_, he⟩
    rcases List.mem_cons.1 hy with rfl | hy
    · exact hc
    · obtain ⟨x, hx, rfl⟩ := List.mem_map.1 hy
      exact hb x (List.mem_range.1 hx)

/-- A stop of `ReadFrags` in a command that makes its reads after some and before others. -/
theorem stopsThere_of_frags {i : Instr} {s : State} {before after : List EngineAccess} {e : Stop}
    {o : Host.Outcome State Fault Refusal} (h : commandAccesses i s = before ++ fragmentReads s ++ after)
    (hb : ∀ y ∈ before, Admitted s y.kind y.addr y.len)
    (hf : readFrags s s.ops.srcAddr s.ops.srcLen.toNat = .error e) (ho : o = e.outcome) : StopsThere i s o := by
  obtain ⟨b, x, a, hfr, hbb, hx⟩ := readFrags_stop hf
  refine stopsThere_of_accesses (before := before ++ b) (after := a ++ after) ?_ ?_ hx ho
  · rw [h, hfr]
    simp
  · intro y hy
    rcases List.mem_append.1 hy with hy | hy
    · exact hb y hy
    · exact hbb y hy

/-- The reads of `ReadFrags` all pass their checks where it answers. -/
theorem readFragments_admitted {s : State} {table : List Byte} {m k : Nat} {frags : List (List Byte)}
    (h : readFragments s table k m = .ok frags) :
    ∀ j < m, checkAccess s .read (fragAddr table (k + j)) (fragLen table (k + j)) = .ok () := by
  induction m generalizing k frags with
  | zero => exact fun j hj => absurd hj (by omega)
  | succ m ih =>
    rw [readFragments] at h
    split at h
    · cases h
    · rename_i hr
      split at h
      · cases h
      · rename_i hfs
        intro j hj
        cases j with
        | zero => exact (memRead_ok_iff.1 hr).1
        | succ j =>
          rw [Nat.add_comm j, ← Nat.add_assoc]
          exact ih hfs j (by omega)

theorem fragmentReads_admitted {s : State} {frags : List (List Byte)}
    (h : readFrags s s.ops.srcAddr s.ops.srcLen.toNat = .ok frags) :
    ∀ y ∈ fragmentReads s, Admitted s y.kind y.addr y.len := by
  intro y hy
  unfold readFrags at h
  rcases List.mem_cons.1 hy with rfl | hy
  · split at h
    · rename_i h0
      rw [Admitted, checkAccess_ok_iff, h0]
      exact .inl rfl
    · split at h
      · cases h
      · rename_i hr
        exact (memRead_ok_iff.1 hr).1
  · obtain ⟨j, hj, rfl⟩ := List.mem_map.1 hy
    have hj' := List.mem_range.1 hj
    split at h
    · omega
    · split at h
      · cases h
      · rename_i table hr
        obtain ⟨-, rfl⟩ := memRead_ok_iff.1 hr
        have := readFragments_admitted h j hj'
        rwa [Nat.zero_add] at this

/-- Everything a command can do: it answers a next state, or it stops at the first of its accesses that does not pass its
check. -/
theorem exec_next_or_stops (i : Instr) (s : State) : (∃ t, exec i s = .next t) ∨ StopsThere i s (exec i s) := by
  have write : ∀ (u : State) (v : List Byte) (before : List EngineAccess),
      (∀ k a n, checkAccess u k a n = checkAccess s k a n) → v.length = destLength i →
      commandAccesses i s = before ++ [⟨.write, s.ops.dstAddr, destLength i⟩] →
      (∀ y ∈ before, Admitted s y.kind y.addr y.len) →
      (∃ t, writeAndComplete i s.ops.dstAddr v u = .next t) ∨
        StopsThere i s (writeAndComplete i s.ops.dstAddr v u) := by
    intro u v before hu hv hc hb
    cases hw : checkAccess u .write s.ops.dstAddr v.length with
    | ok => exact .inl ⟨_, writeAndComplete_of_check hw⟩
    | error e =>
      refine .inr (stopsThere_of_accesses hc hb ?_ (writeAndComplete_of_error hw))
      rw [← hu, ← hv]
      exact hw
  cases i with
  | sha1Init => exact .inl ⟨_, rfl⟩
  | sha1Update =>
    simp only [exec, execSha1Update]
    split
    · rename_i hv
      split
      · rename_i hr
        exact .inr (stopsThere_of_accesses (before := []) (by simp only [commandAccesses, hv, if_true]; rfl) (by simp)
          (memRead_error_iff.1 hr) rfl)
      · exact .inl ⟨_, rfl⟩
    · exact .inl ⟨_, rfl⟩
  | sha1Final =>
    simp only [exec, execSha1Final]
    split
    · rename_i hv
      exact write _ _ [] (fun _ _ _ => rfl) (finish_length _) (by simp only [commandAccesses, hv, if_true]; rfl) (by simp)
    · exact .inl ⟨_, rfl⟩
  | sha1Vector =>
    simp only [exec, execSha1Vector]
    split
    · rename_i hf
      exact .inr (stopsThere_of_frags (before := []) rfl (by simp) hf rfl)
    · rename_i hf
      exact write _ _ (fragmentReads s) (fun _ _ _ => rfl) (sha1_length _) rfl (fragmentReads_admitted hf)
  | hmacVector =>
    simp only [exec, execHmacVector]
    split
    · exact .inl ⟨_, rfl⟩
    · rename_i hn
      split
      · rename_i hk
        exact .inr (stopsThere_of_accesses (before := []) (by simp only [commandAccesses, if_neg hn]; rfl) (by simp)
          (memRead_error_iff.1 hk) rfl)
      · rename_i hk
        have hk' : ∀ y ∈ [(⟨.read, s.ops.keyAddr, s.ops.keyLen.toNat⟩ : EngineAccess)], Admitted s y.kind y.addr y.len := by
          simpa using (memRead_ok_iff.1 hk).1
        split
        · rename_i hf
          exact .inr (stopsThere_of_frags (by simp only [commandAccesses, if_neg hn]; rfl) hk' hf rfl)
        · rename_i hf
          refine write _ _ (⟨.read, s.ops.keyAddr, s.ops.keyLen.toNat⟩ :: fragmentReads s) (fun _ _ _ => rfl)
            (hmacFn_length _ _) (by simp only [commandAccesses, if_neg hn]) fun y hy => ?_
          rcases List.mem_cons.1 hy with rfl | hy
          · exact (memRead_ok_iff.1 hk).1
          · exact fragmentReads_admitted hf y hy
  | hmac =>
    simp only [exec, execHmac]
    split
    · rename_i hk
      exact .inr (stopsThere_of_accesses (before := []) rfl (by simp) (memRead_error_iff.1 hk) rfl)
    · rename_i hk
      split
      · rename_i hs
        exact .inr (stopsThere_of_accesses (before := [_]) rfl (by simpa using (memRead_ok_iff.1 hk).1)
          (memRead_error_iff.1 hs) rfl)
      · rename_i hs
        exact write _ _ [_, _] (fun _ _ _ => rfl) (hmacFn_length _ _) rfl
          (by simpa using ⟨(memRead_ok_iff.1 hk).1, (memRead_ok_iff.1 hs).1⟩)
  | eapolMic =>
    cases hd : checkAccess s .write s.ops.dstAddr 16 with
    | error e =>
      refine .inr (stopsThere_of_accesses (before := []) (x := ⟨.write, s.ops.dstAddr, 16⟩)
        (after := if s.ops.version = 2 then [⟨.read, s.ops.keyAddr, s.ops.keyLen.toNat⟩,
          ⟨.read, s.ops.srcAddr, s.ops.srcLen.toNat⟩, ⟨.write, s.ops.dstAddr, 16⟩] else []) ?_ (by simp) hd ?_)
      · simp only [commandAccesses, destLength]
        split <;> rfl
      · simp only [exec, execEapolMic,
          memWrite_error_iff.2 (show checkAccess s .write s.ops.dstAddr (zeros 16).length = .error e by
            rw [zeros_length]; exact hd)]
    | ok =>
      obtain ⟨z, hz⟩ : ∃ z, z = afterWrite s s.ops.dstAddr (zeros 16) := ⟨_, rfl⟩
      have hck : ∀ k a n, checkAccess z k a n = checkAccess s k a n := fun k a n => by rw [hz, checkAccess_afterWrite]
      have ho : z.ops = s.ops := by rw [hz, afterWrite_ops]
      rw [show exec .eapolMic s = _ from execEapolMic_of_check hz hd]
      split
      · rename_i hv
        have hacc : commandAccesses .eapolMic s = [⟨.write, s.ops.dstAddr, 16⟩, ⟨.read, s.ops.keyAddr, s.ops.keyLen.toNat⟩,
            ⟨.read, s.ops.srcAddr, s.ops.srcLen.toNat⟩, ⟨.write, s.ops.dstAddr, 16⟩] := by
          simp only [commandAccesses, if_pos hv, destLength]
        simp only [hashFrame, ho]
        split
        · rename_i hk
          exact .inr (stopsThere_of_accesses (before := [_]) hacc (by simpa using hd)
            ((hck _ _ _).symm.trans (memRead_error_iff.1 hk)) rfl)
        · rename_i hk
          have hk' := (hck _ _ _).symm.trans (memRead_ok_iff.1 hk).1
          split
          · rename_i hs
            exact .inr (stopsThere_of_accesses (before := [_, _]) hacc (by simpa using ⟨hd, hk'⟩)
              ((hck _ _ _).symm.trans (memRead_error_iff.1 hs)) rfl)
          · rename_i hs
            have hs' := (hck _ _ _).symm.trans (memRead_ok_iff.1 hs).1
            exact write z _ [_, _, _] hck (micOf_length _ _) hacc (by simpa using ⟨hd, hk', hs'⟩)
      · exact .inl ⟨_, rfl⟩

end Sys2Proof.Machine
end

