-- ==== Sys2Proof/Laws/PerInstr.lean ====
section
/-! SUPPORT. One lemma per command about its command word (30_encoding.md R70 to R73): the reserved field is 0, and the
OPCODE field is one of 0x01 to 0x07 and selects the command in the opcode map. -/

namespace Sys2Proof.Laws.CommandWord

/-- The command word of `i` is legal and its OPCODE selects `i` (R72, R73). -/
def Statement (i : Instr) : Prop :=
  rsvField (encode i) = 0 ∧ wellFormedWord (encode i) = true ∧ decodeOpcode (opcodeField (encode i)) = .ok i

theorem sha1Init : Statement .sha1Init := by unfold Statement; decide
theorem sha1Update : Statement .sha1Update := by unfold Statement; decide
theorem sha1Final : Statement .sha1Final := by unfold Statement; decide
theorem sha1Vector : Statement .sha1Vector := by unfold Statement; decide
theorem hmacVector : Statement .hmacVector := by unfold Statement; decide
theorem hmac : Statement .hmac := by unfold Statement; decide
theorem eapolMic : Statement .eapolMic := by unfold Statement; decide

end Sys2Proof.Laws.CommandWord
end

