-- ==== Sys2Proof/Tests/Slice0.lean ====
section
/-! SUPPORT. The model's own tests. The expected values are those of spec/95_test_vectors.md, named in each comment; then
one witness for each statement with hypotheses, clause by clause. -/

set_option maxRecDepth 100000

open Sys2Proof Sys2Proof.Machine

namespace Sys2Proof.Tests

/-! ### Well-formedness -/

/-- R32: an aligned 32-bit access at the last offset. -/
theorem test_wf_last_offset : WindowAccess.wf ⟨0xFC, 4⟩ = true := by decide
/-- V-ERR-11: a 16-bit access. -/
theorem test_ill_formed_width : WindowAccess.wf ⟨0x04, 2⟩ = false := by decide
/-- V-ERR-11: a 32-bit access at offset 0x02. -/
theorem test_ill_formed_alignment : WindowAccess.wf ⟨0x02, 4⟩ = false := by decide
/-- R32: an access beyond 0xFF. -/
theorem test_ill_formed_offset : WindowAccess.wf ⟨0x100, 4⟩ = false := by decide
/-- V-ERR-4: a reserved bit. -/
theorem test_ill_formed_reserved : wellFormedWord 0x00000101#32 = false := by decide
/-- V-ERR-1: opcode 0x00. -/
theorem test_ill_formed_opcode_zero : wellFormedWord 0x00000000#32 = false := by decide
/-- V-ERR-2: opcode 0x08. -/
theorem test_ill_formed_opcode_eight : wellFormedWord 0x00000008#32 = false := by decide

/-! ### Decoding, each word written out from R73: RSV (24 bits), then OPCODE (8 bits) -/

theorem test_decode_sha1Init : decode (0b000000000000000000000000#24 ++ 0b00000001#8) = .ok .sha1Init := by decide
theorem test_decode_sha1Update : decode (0b000000000000000000000000#24 ++ 0b00000010#8) = .ok .sha1Update := by decide
theorem test_decode_sha1Final : decode (0b000000000000000000000000#24 ++ 0b00000011#8) = .ok .sha1Final := by decide
theorem test_decode_sha1Vector : decode (0b000000000000000000000000#24 ++ 0b00000100#8) = .ok .sha1Vector := by decide
theorem test_decode_hmacVector : decode (0b000000000000000000000000#24 ++ 0b00000101#8) = .ok .hmacVector := by decide
theorem test_decode_hmac : decode (0b000000000000000000000000#24 ++ 0b00000110#8) = .ok .hmac := by decide
theorem test_decode_eapolMic : decode (0b000000000000000000000000#24 ++ 0b00000111#8) = .ok .eapolMic := by decide
/-- V-ERR-5. -/
theorem test_decode_top_bit : decode 0x80000004#32 = .error .reservedBits := by decide
/-- V-ERR-3. -/
theorem test_decode_opcode_ff : decode 0x000000FF#32 = .error .illegalOpcode := by decide
theorem test_decodeTableWord : decodeTableWord 32 5 = some .hmacVector := by decide

/-! ### Helpers -/

/-- A property of the state a step answers; false where it stops. -/
def after (o : Host.Outcome State Fault Refusal) (p : State → Bool) : Bool :=
  match o with
  | .next t => p t
  | _ => false

/-- The step stops with a fault. -/
def faultsWith (o : Host.Outcome State Fault Refusal) (f : Fault) : Bool :=
  match o with
  | .fault g => decide (f = g)
  | _ => false

/-- `n` bytes of memory. -/
def bytesAt (t : State) (a n : Nat) : List Byte := (List.range n).map fun i => t.mem.read (a + i)

/-- The reset state with operand registers and memory set. -/
def setup (src len key klen dst version : Nat) (m : Memory) : State :=
  { State.reset with
    ops := ⟨BitVec.ofNat 32 src, BitVec.ofNat 32 (src / 2 ^ 32), BitVec.ofNat 32 len, BitVec.ofNat 32 key,
      BitVec.ofNat 32 (key / 2 ^ 32), BitVec.ofNat 32 klen, BitVec.ofNat 32 dst, BitVec.ofNat 32 (dst / 2 ^ 32),
      BitVec.ofNat 32 version⟩
    mem := m }

/-- The bytes of a number, `n` of them, most significant first. -/
def hex (n v : Nat) : List Byte := (List.range n).map fun i => BitVec.ofNat 8 (v / 256 ^ (n - 1 - i))

/-- Memory with a byte string at an address. -/
def put (a : Nat) (v : List Byte) (m : Memory) : Memory := m.writeBytes a v

/-- SHA1_INIT has run on the state. -/
def initialized (s : State) : State := setCtxValid true (setCtx (initCtx s.ctx) s)

/-- The state with a command word latched. -/
def latched (v : Word) (s : State) : State := accept v s

/-- One agent's turn waiting. -/
def waiting (t : Turn) (s : State) : State := { s with agenda := [t] }

/-! ### Primitives -/

/-- V-PRIM-1. -/
theorem test_rol : rol 1 0x80000001#32 = 0x00000003#32 ∧ rol 5 0x12345678#32 = 0x468ACF02#32 ∧
    rol 30 0x12345678#32 = 0x048D159E#32 := by decide
/-- V-PRIM-2, last row. -/
theorem test_mix : mixFn 0 0x67452301#32 0xEFCDAB89#32 0x98BADCFE#32 = 0xFFFFFFFF#32 ∧
    mixFn 1 0x67452301#32 0xEFCDAB89#32 0x98BADCFE#32 = 0x10325476#32 ∧
    mixFn 2 0x67452301#32 0xEFCDAB89#32 0x98BADCFE#32 = 0xEFCDAB89#32 := by decide
/-- V-CNT-5: the largest carry. -/
theorem test_count_carry : addCount 0x00000000FFFFFFF8#64 0xFFFFFFFF = 0x00000008FFFFFFF0#64 := by decide
/-- V-CMP-4, rounds 16 and 21: the schedule words, and round 0. -/
theorem test_schedule_and_round :
    let block := hex 4 0x61626380 ++ zeros 59 ++ hex 1 0x18
    let k : Work := ⟨blockWords block, 0x67452301#32, 0xEFCDAB89#32, 0x98BADCFE#32, 0x10325476#32, 0xC3D2E1F0#32⟩
    schedWord (expandSchedule 16 k) 16 = 0xC2C4C700#32 ∧ schedWord (sha1Rounds 22 k) 21 = 0x00000060#32 ∧
      (sha1Round 0 k).a = 0x0116FC33#32 ∧ (sha1Round 0 k).c = 0x7BF36AE2#32 := by decide +kernel

/-! ### One step of each command -/

/-- V-SHA-1: STATUS, CTX_H0 and CTX_H4 after SHA1_INIT from reset. -/
theorem test_init : after (step (State.reset.withFetchWord 32 1)) (fun t =>
    t.status.word == 0x00000102#32 && regValue t (.ctxH 0) == 0x67452301#32 && regValue t (.ctxH 4) == 0xC3D2E1F0#32) =
    true := by decide +kernel
/-- V-SHA-4: SHA1_INIT leaves the buffer of an earlier hash. -/
theorem test_init_keeps_buffer : after (step (State.withFetchWord
    (setCtx ⟨HashWords.zero, 0x18#64, toBytes 64 (hex 4 0x61626300)⟩ State.reset) 32 1)) (fun t =>
    regValue t (.ctxBuf 0) == 0x00636261#32 && regValue t .ctxCountLo == 0) = true := by decide +kernel

/-- The bytes 00 to 45 at 0x1000 (program P2). -/
def ramp : Memory := put 0x1000 ((List.range 70).map (BitVec.ofNat 8 ·)) []

/-- V-ABS-3: SHA1_UPDATE of 70 bytes: one compression, and the buffer bytes above the fill level. -/
theorem test_update_across_block : after (step (State.withFetchWord (initialized (setup 0x1000 70 0 0 0 0 ramp)) 32 2))
    (fun t => t.status.word == 0x00000102#32 && regValue t (.ctxH 0) == 0xB9AC757B#32 &&
      regValue t .ctxCountLo == 0x00000230#32 && regValue t (.ctxBuf 0) == 0x43424140#32 &&
      regValue t (.ctxBuf 1) == 0x07064544#32 && regValue t (.ctxBuf 15) == 0x3F3E3D3C#32) = true := by decide +kernel
/-- V-SHA-6: a read that wraps. -/
theorem test_update_wraps : faultsWith (step (State.withFetchWord
    (initialized (setup 0xFFFFFFFFFFFFFFFF 2 0 0 0 0 [])) 32 2)) (.busFault 0xFFFFFFFFFFFFFFFF 0x00000002#32) = true := by
  decide +kernel

/-- P1 step 6: SHA1_FINAL of "abc". -/
theorem test_final_abc : after (step (State.withFetchWord
    (setCtx (absorb (initCtx Ctx.zero) (hex 3 0x616263)) (initialized (setup 0 0 0 0 0x2000 0 []))) 32 3)) (fun t =>
    t.status.word == 0x00000100#32 &&
      bytesAt t 0x2000 20 == hex 20 0xa9993e364706816aba3e25717850c26c9cd0d89d && t.mem.read 0x2014 == 0 &&
      regValue t (.ctxH 0) == 0) = true := by decide +kernel
/-- V-SHA-3: SHA1_FINAL without SHA1_INIT. -/
theorem test_final_sequence : after (step (State.reset.withFetchWord 32 3)) (fun t =>
    t.status.word == 0x00000500#32 && decide (t.mem = [])) = true := by decide +kernel

/-- The string and the table of program P6: (0x1000, 10), (0x100A, 0), (0x100A, 46), little-endian. -/
def tableP6 : Memory := put 0x5000
    (hex 16 0x00100000000000000a00000000000000 ++ hex 16 0x0a100000000000000000000000000000 ++
      hex 16 0x0a100000000000002e00000000000000)
  (put 0x1000 (hex 56 0x6162636462636465636465666465666765666768666768696768696a68696a6b696a6b6c6a6b6c6d6b6c6d6e6c6d6e6f6d6e6f706e6f7071) [])

/-- P6, first RUN. -/
theorem test_vector_three_fragments : after (step (State.withFetchWord (setup 0x5000 3 0 0 0x2000 0 tableP6) 32 4)) (fun t =>
    t.status.word == 0x00000100#32 && bytesAt t 0x2000 20 == hex 20 0x84983e441c3bd26ebaae4aa1f95129e5e54670f1) = true := by
  decide +kernel
/-- V-SHA-9: a count of 0 reads no table; the destination of P5 step 8. -/
theorem test_vector_empty : after (step (State.withFetchWord (setup 0xFFFFFFFFFFFFFFFF 0 0 0 0 0 []) 32 4)) (fun t =>
    bytesAt t 0 20 == hex 20 0xda39a3ee5e6b4b0d3255bfef95601890afd80709) = true := by decide +kernel

/-- The key, the fragments and the table of program P4. -/
def tableP4 : Memory := put 0x5000 (hex 16 0x00510000000000000300000000000000 ++ hex 16 0x00520000000000000500000000000000)
  (put 0x5100 (hex 3 0x486920) (put 0x5200 (hex 5 0x5468657265) (put 0x4000 (List.replicate 20 0x0b#8) [])))

/-- P4, first RUN: RFC 2202 case 1 in two fragments. -/
theorem test_hmacVector : after (step (State.withFetchWord (setup 0x5000 2 0x4000 20 0x2000 0 tableP4) 32 5)) (fun t =>
    t.status.word == 0x00000100#32 && bytesAt t 0x2000 20 == hex 20 0xb617318655057264e28bc0b6fb378c8ef146be00) = true := by
  decide +kernel
/-- V-HM-12: the fragment cap comes before the key read, which would wrap. -/
theorem test_hmacVector_cap : after (step (State.withFetchWord
    (setup 0 0xFFFFFFFF 0xFFFFFFFFFFFFFFFF 2 0x2100 0 []) 32 5)) (fun t => t.status.word == 0x00000200#32) = true := by
  decide +kernel

/-- V-HM-13: an empty key and an empty message. -/
theorem test_hmac_empty : after (step (State.withFetchWord (setup 0 0 0 0 0x2000 0 []) 32 6)) (fun t =>
    bytesAt t 0x2000 20 == hex 20 0xfbdb1d1b18aa6c08324b7d64b71fb76370690e1d) = true := by decide +kernel
/-- R151: the key of 80 bytes 0xaa becomes its digest. -/
theorem test_hmac_long_key : shortenKey (List.replicate 80 0xaa#8) = hex 20 0x4ca0ef38f1794b28a8f8ee110ee79d48ce13be25 := by
  decide +kernel

/-- The frame of program P3, byte i = 7i + 3 but the 16 bytes 0xEE at 0x3051, and its key. -/
def frameP3 : Memory := put 0x4000 ((List.range 16).map (BitVec.ofNat 8 ·))
  (put 0x3000 ((List.range 81).map (fun i => BitVec.ofNat 8 (7 * i + 3)) ++ List.replicate 16 0xEE#8 ++
    hex 2 0xaab1) [])

/-- V-MIC-1: the field ends as the MIC of the frame with the field zeroed. -/
theorem test_mic : after (step (State.withFetchWord (setup 0x3000 99 0x4000 16 0x3051 2 frameP3) 32 7)) (fun t =>
    t.status.word == 0x00000100#32 && bytesAt t 0x3051 16 == hex 16 0xec89a5187ecce7c34925fd5c268ea85d &&
      t.mem.read 0x3050 == 0x33 && t.mem.read 0x3061 == 0xaa) = true := by decide +kernel
/-- V-MIC-4: a version of 0x00000102 fails, and the field is zero. -/
theorem test_mic_version : after (step (State.withFetchWord (setup 0x3000 99 0x4000 16 0x3051 0x102 frameP3) 32 7)) (fun t =>
    t.status.word == 0x00000300#32 && bytesAt t 0x3051 16 == zeros 16) = true := by decide +kernel

/-! ### Races (R62, R66): U10 gives any value to each -/

/-- A host without coherence that has stored the byte at 5 through its caches, while SHA1_UPDATE is in progress. -/
def holding : State := latched 2 { State.reset with
  platform := ⟨0, [], [], false⟩, sharing := { Sharing.empty with dirty := [5] } }

/-- R62: SHA1_FINAL ends in ERR_SEQUENCE and writes nothing, but a destination byte another agent has read is raced; the
next byte is not. -/
theorem test_race_destination_of_error :
    (raceDestinations (destination .sha1Final (setup 0 0 0 0 0x2000 0 []).ops)
      (agentLoad true 0x2000 (latched 3 (setup 0 0 0 0 0x2000 0 [])))).read 0x2000 =
        Config.freeByte ((setup 0 0 0 0 0x2000 0 []).draws + 1) .engineWrite 0x2000 ∧
    (raceDestinations (destination .sha1Final (setup 0 0 0 0 0x2000 0 []).ops)
      (agentLoad true 0x2000 (latched 3 (setup 0 0 0 0 0x2000 0 [])))).read 0x2001 = 0 :=
  ⟨raceDestinations_read_raced (by decide) (by decide) (by decide), raceDestinations_read_other (by decide)⟩

/-- R62: a store after the engine's step and before the host reads BUSY = 0 races; one after that read does not. -/
theorem test_race_before_idle_read :
    upcoming { State.reset with agenda := [.store true 5 1, .poll, .store true 6 1] } = [5] ∧
    upcoming { State.reset with agenda := [.read 0x04 4, .store true 5 1] } = [] ∧
    upcoming { State.reset with agenda := [.write 0x00 4 1, .read 0x04 4, .store true 5 1, .engine, .read 0x04 4] } = [5] := by
  decide

/-- R62: another agent has read the first byte of the MIC field while EAPOL_MIC is in progress. The byte the engine hashes is
one draw and the byte the zero write leaves there another; a byte it has not read is the zero. -/
theorem test_race_in_mic_field :
    engineByte (afterWrite (agentLoad true 0x2000 (latched 7 (setup 0x2000 16 0 0 0x2000 2 []))) 0x2000 (zeros 16)) 1 0x2000 =
      Config.freeByte 1 (.engineRead 1) 0x2000 ∧
    destByte (agentLoad true 0x2000 (latched 7 (setup 0x2000 16 0 0 0x2000 2 []))) 0x2000 0 =
      Config.freeByte 1 .engineWrite 0x2000 ∧
    readRaces (agentLoad true 0x2000 (latched 7 (setup 0x2000 16 0 0 0x2000 2 []))) 0x2001 = false ∧
    upcoming { latched 7 (setup 0x2000 16 0 0 0x2000 2 []) with
      agenda := [.load true 0x200F, .load true 0x2010, .poll] } = [0x200F] :=
  ⟨by rw [engineByte, if_pos (by decide)]; rfl, by rw [destByte, if_pos (by decide)]; rfl, by decide, by decide⟩

/-- R62: SHA1_UPDATE in progress while the destination of an earlier command is still in use. A load of its last byte still to
come is a breach on that byte; one of the byte after it is none. -/
theorem test_race_in_earlier_destination :
    upcoming { latched 2 State.reset with
      sharing := { Sharing.empty with unseen := [⟨0x2000, 20⟩] }
      agenda := [.load true 0x2013, .load true 0x2014, .poll] } = [0x2013] ∧
    readRaces { latched 2 State.reset with
      sharing := { Sharing.empty with unseen := [⟨0x2000, 20⟩], reads := [0x2013] } } 0x2013 = true := by decide

/-- R66: without coherence a clean after the CMD write is too late for the engine's read (log 12). -/
theorem test_clean_too_late :
    readRaces (cacheClean ⟨5, 1⟩ holding) 5 = true := by decide

/-- R66: without coherence a store not through the caches over a byte they hold uncleaned: memory holds any value once that
byte is cleaned, and a load through the caches gets any value (log 12). -/
theorem test_store_past_the_caches :
    (cacheClean ⟨5, 1⟩ (agentStore false 5 1 { holding with status := Status.reset })).mem.read 5 =
      Config.freeByte 0 .cacheOperation 5 ∧
    (agentStore false 6 1 holding).sharing.stale.contains 6 = true ∧
    (agentLoad true 6 (agentStore false 6 1 holding)).readData = (Config.freeByte 0 .agentLoad 6).setWidth 32 :=
  ⟨drawEach_read_mem (by decide) _ _ (by decide), by decide, by rw [agentLoad]; simp only; rw [if_pos (by decide)]; rfl⟩

/-! ### Witnesses: a concrete state and operands for the hypotheses of each statement

`latched v s` is `s` with the word `v` accepted; `setup` and `State.reset` are idle. -/

/-- DecodeMatchesFullWord, IllegalWordsExactly: words at the boundaries of the legal range. -/
theorem witness_words : decode 0x00000007#32 = .ok .eapolMic ∧ (0x00000100#32).extractLsb' 8 24 ≠ 0 ∧
    ((0x00000008#32).extractLsb' 8 24 = 0 ∧ 8 ≤ ((0x00000008#32).extractLsb' 0 8).toNat) ∧
    ((0x00000000#32).extractLsb' 8 24 = 0 ∧ ((0x00000000#32).extractLsb' 0 8).toNat = 0) := by decide

/-- The hypotheses of IllegalWordCompletes, for the word `v` latched after reset. -/
abbrev illegalHypotheses (v : Word) : Prop :=
  (latched v State.reset).status.busy = true ∧ (latched v State.reset).agenda = [] ∧
    (waiting .engine (latched v State.reset)).agenda = [.engine] ∧
    (waiting .poll (latched v State.reset)).agenda = [.poll] ∧
    ((latched v State.reset).cmdlat.extractLsb' 8 24 ≠ 0 ∨ ((latched v State.reset).cmdlat.extractLsb' 0 8).toNat = 0 ∨
      8 ≤ ((latched v State.reset).cmdlat.extractLsb' 0 8).toNat)

/-- IllegalWordCompletes: each of the three ways a word is illegal, at its boundary, with each turn of the statement. -/
theorem witness_illegal_word : illegalHypotheses 0x00000101#32 ∧ illegalHypotheses 0x00000000#32 ∧
    illegalHypotheses 0x00000008#32 := by decide

/-- StepRunsLatchedCommand: with no turn waiting, and with the engine's turn next. -/
theorem witness_step_runs :
    (latched 1 State.reset).status.busy = true ∧ decode (latched 1 State.reset).cmdlat = .ok .sha1Init ∧
      (latched 1 State.reset).agenda = [] ∧ (waiting .engine (latched 1 State.reset)).agenda = [.engine] := by decide

/-- IdleEngineTakesNoStep. -/
theorem witness_idle : State.reset.status.busy = false ∧ State.reset.agenda = [] ∧
    (waiting .engine State.reset).agenda = [.engine] := by decide

/-- CmdWriteAccepted. -/
theorem witness_cmd_write : (waiting (wr State.reset .cmd 7) State.reset).status.busy = false ∧
    (waiting (wr State.reset .cmd 7) State.reset).agenda = [wr (waiting (wr State.reset .cmd 7) State.reset) .cmd 7] := by
  decide

/-- The hypotheses of WritesIgnoredWhileBusy, for a write at address `a` while SHA1_UPDATE is in progress. -/
abbrev writeBusyHypotheses (a : Addr) : Prop :=
  (waiting (.write a 4 9) (latched 2 State.reset)).status.busy = true ∧
    (waiting (.write a 4 9) (latched 2 State.reset)).agenda = [.write a 4 9] ∧
    (windowOffset (waiting (.write a 4 9) (latched 2 State.reset)) a 4).isSome

/-- WritesIgnoredWhileBusy: the first and the last offset of the window. -/
theorem witness_write_busy : writeBusyHypotheses 0x00#64 ∧ writeBusyHypotheses 0xFC#64 := by decide

/-- OperandWriteStored: the first and the last operand register. -/
theorem witness_operand_write : ∀ r ∈ [Reg.srcAddrLo, Reg.version],
    (waiting (wr State.reset r 5) State.reset).status.busy = false ∧
      r ∈ operandRegs ∧
      (waiting (wr State.reset r 5) State.reset).agenda = [wr (waiting (wr State.reset r 5) State.reset) r 5] := by decide +kernel

/-- ReservedAndReadOnlyAccesses: a reserved offset, STATUS and the last `CTX_*` register. -/
theorem witness_reserved : ∀ o ∈ [0x08, 0xA0, 0xFC, 0x04, 0x9C],
    windowOffset State.reset (BitVec.ofNat 64 o) 4 = some o ∧
      (regAt o = none ∨ regAt o = some .status ∨ ∃ r ∈ ctxRegs, regAt o = some r) := by decide +kernel

/-- OtherWindowAccessRefused: a width of 2, a misaligned offset, the first offset beyond the window, and the last one in
it. -/
theorem witness_other_access : (windowBase State.reset).toNat ≤ (0x02#64).toNat ∧
    ¬ (2 = 4 ∧ (0x04#64).toNat ≤ (windowBase State.reset).toNat + 0xFC ∧ (0x04#64).toNat % 4 = 0) ∧
    ¬ (4 = 4 ∧ (0x02#64).toNat ≤ (windowBase State.reset).toNat + 0xFC ∧ (0x02#64).toNat % 4 = 0) ∧
    ¬ (4 = 4 ∧ (0x100#64).toNat ≤ (windowBase State.reset).toNat + 0xFC ∧ (0x100#64).toNat % 4 = 0) ∧
    (4 = 4 ∧ (0xFC#64).toNat ≤ (windowBase State.reset).toNat + 0xFC ∧ (0xFC#64).toNat % 4 = 0) := by decide

/-- The hypotheses of ReadsWhileBusy, for a read at address `a` while the word `v` is in progress. -/
abbrev readBusyHypotheses (v : Word) (a : Addr) : Prop :=
  (waiting (.read a 4) (latched v State.reset)).status.busy = true ∧
    (waiting (.read a 4) (latched v State.reset)).BusyHasNoResult ∧
    (waiting (.read a 4) (latched v State.reset)).agenda = [.read a 4]

/-- ReadsWhileBusy: STATUS, an operand register, CMD, a reserved offset, and the last `CTX_*` register under the last context
command and under the first composite one. -/
theorem witness_ctx_read : readBusyHypotheses 3 0x04#64 ∧ readBusyHypotheses 3 0x38#64 ∧ readBusyHypotheses 3 0x00#64 ∧
    readBusyHypotheses 3 0xFC#64 ∧ readBusyHypotheses 3 0x9C#64 ∧ readBusyHypotheses 4 0x9C#64 ∧
    regAt 0x04 = some .status ∧ regAt 0x38 = some .version ∧ regAt 0x00 = some .cmd ∧ regAt 0xFC = none ∧
    regAt 0x9C = some (.ctxBuf 15) ∧ windowOffset State.reset 0x9C#64 4 = some 0x9C := by decide

/-- The hypotheses of ReadReturnsRegister. -/
abbrev readHypotheses (s : State) (r : Reg) : Prop :=
  ¬ (r ∈ ctxRegs ∧ s.status.busy = true ∧ s.cmdlat ∈ [0x00000001#32, 0x00000002#32, 0x00000003#32]) ∧
    (waiting (rd s r) s).agenda = [rd (waiting (rd s r) s) r]

/-- ReadReturnsRegister: CMD and STATUS under a context command; a `CTX_*` register while idle, under the first composite
command and under an illegal word. -/
theorem witness_read : readHypotheses (latched 3 State.reset) .cmd ∧ readHypotheses (latched 3 State.reset) .status ∧
    readHypotheses State.reset (.ctxH 0) ∧ readHypotheses (latched 4 State.reset) .ctxCountLo ∧
    readHypotheses (latched 0 State.reset) (.ctxBuf 15) := by decide +kernel

/-- ResetInput: while idle; while a command with a destination is in progress; under an illegal word. -/
theorem witness_reset : (waiting .reset State.reset).mem.wf ∧ (waiting .reset State.reset).agenda = [.reset] ∧
    State.reset.status.busy = false ∧ (latched 7 State.reset).status.busy = true ∧
    decode (latched 7 State.reset).cmdlat = .ok .eapolMic ∧ InDestination .eapolMic (latched 7 State.reset) 15 ∧
    decode (latched 8 State.reset).cmdlat = .error .illegalOpcode := by decide +kernel

/-- PollEndsAfterCompletion: SHA1_INIT in progress, a host that polls, then loads a byte, or invalidates it first. -/
theorem witness_poll (rest : List Turn) (_ : rest ∈ [[.load true 5], [.invalidate ⟨5, 1⟩, .load true 5]]) :
    ∃ (s t : State), s.status.busy = true ∧ decode s.cmdlat = .ok .sha1Init ∧ s.agenda = .poll :: rest ∧
      exec .sha1Init { s with agenda := .poll :: rest, readData := s.status.word } = .next t ∧
      s.platform.dmaCoherent = true ∧ inRange ⟨5, 1⟩ (5#64).toNat = true ∧ (5#64).toNat ∉ s.sharing.dirty :=
  ⟨{ latched 1 State.reset with agenda := .poll :: rest }, _, rfl,
    (by decide : decode (latched 1 State.reset).cmdlat = .ok .sha1Init), rfl, rfl, rfl, by decide,
    (by decide : (5#64).toNat ∉ (latched 1 State.reset).sharing.dirty)⟩

/-- EAPOL_MIC with an unsupported version in progress after reset, without coherence, a host that polls and then loads. -/
def pollStale : State := { latched 7 State.reset with platform := ⟨0, [], [], false⟩, agenda := [.poll, .load true 15] }

/-- PollEndsAfterCompletion: a load through the caches of the last byte the command has written. -/
theorem witness_poll_stale : pollStale.status.busy = true ∧ decode pollStale.cmdlat = .ok .eapolMic ∧
    pollStale.platform.dmaCoherent = false ∧ InDestination .eapolMic pollStale (15#64).toNat ∧
    ∃ t, exec .eapolMic { pollStale with agenda := [.poll, .load true 15], readData := pollStale.status.word } = .next t :=
  ⟨by decide, by decide, by decide, by decide, _, (execEapolMic_of_check
    (s := { pollStale with agenda := [.poll, .load true 15], readData := pollStale.status.word })
    rfl (by decide)).trans (if_neg (by decide))⟩

/-- CommandUndisturbedWhileBusy: a store by another agent while SHA1_UPDATE is in progress. -/
theorem witness_undisturbed : ∃ (s t : State) (turn : Turn), s.status.busy = true ∧ s.agenda = [turn] ∧
    turn ≠ .engine ∧ turn ≠ .reset ∧ step s = .next t :=
  ⟨waiting (.store true 5 6) (latched 2 State.reset), _, .store true 5 6, by decide, by decide, by decide, by decide, rfl⟩

/-- StepKeepsInv: the reset state meets the invariant, and its step answers a next state. -/
theorem witness_inv : State.reset.Inv ∧ ∃ t, step State.reset = .next t := ⟨by decide, _, rfl⟩

/-- HowAStepStops: a step that faults, a refused window access, and a refused operand in device memory. -/
theorem witness_stops :
    (∃ f, step (State.withFetchWord (initialized (setup 0xFFFFFFFFFFFFFFFF 2 0 0 0 0 [])) 32 2) = .fault f) ∧
    (∃ r, step (waiting (.read 0x02 4) State.reset) = .refused r) ∧
    ∃ r, step (State.withFetchWord
      { initialized (setup 0x1000 1 0 0 0 0 []) with platform := ⟨0, [], [⟨0x1000, 1⟩], true⟩ } 32 2) = .refused r :=
  ⟨⟨_, rfl⟩, ⟨_, rfl⟩, ⟨_, rfl⟩⟩

/-- MemoryWriteAndForm: two memories that read alike. -/
theorem witness_memory : Memory.wf [(3, 7)] ∧ Memory.wf (Memory.write [] 3 7) ∧ (2 ^ 64 - 1 : Nat) < 2 ^ 64 := by decide

/-- RefusedAccessFaults, FirstRefusedAccessFaults: the smallest access that wraps, and a refused
one. -/
theorem witness_refused_access : Refused State.reset .read (2 ^ 64 - 1) 2 ∧ Refused State.reset .read (2 ^ 64 - 15) (16 * 1) ∧
    Refused { State.reset with platform := ⟨0, [⟨.write, ⟨16, 1⟩, ⟨1, 20⟩⟩], [], true⟩ } .write 16 20 ∧
    Refused (setup 0 0 0 0 (2 ^ 64 - 15) 3 []) .write (setup 0 0 0 0 (2 ^ 64 - 15) 3 []).ops.dstAddr 16 := by decide

/-- A platform that refuses a read of 46 bytes at 0x100A and every write of 20 bytes. -/
def strict : Platform := ⟨0, [⟨.read, ⟨0x100A, 1⟩, ⟨46, 1⟩⟩, ⟨.write, ⟨0, 2 ^ 64⟩, ⟨20, 1⟩⟩], [], true⟩

/-- The table of program P6 on that platform: its third fragment is refused. -/
def strictTable : State := { setup 0x5000 3 0 0 0 0 tableP6 with platform := strict }

/-- No table, no key and no data on that platform: the destination is refused. -/
def strictEmpty : State := { setup 0 0 0 0 0 0 [] with platform := strict }

/-- FirstRefusedAccessFaults, SHA1_UPDATE and SHA1_FINAL: a read that wraps, and a refused write. -/
theorem witness_first_refused_context :
    (initialized (setup (2 ^ 64 - 1) 2 0 0 0 0 [])).status.ctxValid = true ∧
    Refused (initialized (setup (2 ^ 64 - 1) 2 0 0 0 0 [])) .read
      (initialized (setup (2 ^ 64 - 1) 2 0 0 0 0 [])).ops.srcAddr 2 ∧
    (initialized strictEmpty).status.ctxValid = true ∧ Refused (initialized strictEmpty) .write 0 20 := by decide

/-- FirstRefusedAccessFaults, SHA1_VECTOR and HMAC_VECTOR: a refused table, a first refused fragment and a refused
destination, with an admitted key; and a refused key. -/
theorem witness_first_refused_vector :
    Refused (setup (2 ^ 64 - 15) 1 0 0 0 0 []) .read (setup (2 ^ 64 - 15) 1 0 0 0 0 []).ops.srcAddr
      (16 * (setup (2 ^ 64 - 15) 1 0 0 0 0 []).ops.srcLen.toNat) ∧
    FirstRefusedFragment strictTable strictTable.ops.srcAddr strictTable.ops.srcLen.toNat 2 ∧
    FragsAdmitted strictEmpty 0 0 ∧ Refused strictEmpty .write 0 20 ∧
    Admitted (setup (2 ^ 64 - 15) 1 0 0 0 0 []) .read 0 0 ∧ Admitted strictTable .read 0 0 ∧
    Admitted strictEmpty .read 0 0 ∧ strictTable.ops.srcLen.toNat ≤ 5 ∧
    Refused (setup 0 0 (2 ^ 64 - 1) 2 0 0 []) .read (setup 0 0 (2 ^ 64 - 1) 2 0 0 []).ops.keyAddr 2 ∧
    (setup 0 0 (2 ^ 64 - 1) 2 0 0 []).ops.srcLen.toNat ≤ 5 := by decide +kernel

/-- FirstRefusedAccessFaults, HMAC and EAPOL_MIC: a refused key, and an admitted key with refused data, after an admitted
zero write. -/
theorem witness_first_refused_key :
    Refused (setup 0 0 (2 ^ 64 - 1) 2 0 2 []) .read (setup 0 0 (2 ^ 64 - 1) 2 0 2 []).ops.keyAddr 2 ∧
    Admitted (setup 0 0 (2 ^ 64 - 1) 2 0 2 []) .write 0 16 ∧ (setup 0 0 (2 ^ 64 - 1) 2 0 2 []).ops.version = 2 ∧
    Admitted (setup (2 ^ 64 - 1) 2 0 0 0 2 []) .read 0 0 ∧ Admitted (setup (2 ^ 64 - 1) 2 0 0 0 2 []) .write 0 16 ∧
    Refused (setup (2 ^ 64 - 1) 2 0 0 0 2 []) .read (setup (2 ^ 64 - 1) 2 0 0 0 2 []).ops.srcAddr 2 ∧
    Refused (setup 0 0 0 0 (2 ^ 64 - 15) 2 []) .write (setup 0 0 0 0 (2 ^ 64 - 15) 2 []).ops.dstAddr 16 := by decide

/-- EngineBytesAndRaces: the duties kept and a read to the last byte admitted; a byte another agent has written, one it is
about to write, and one the host has not cleaned. -/
theorem witness_engine_bytes : State.reset.DutiesKept ∧ Admitted State.reset .read (2 ^ 64 - 1) 1 ∧
    5 ∈ (agentStore true 5 1 (latched 2 State.reset)).sharing.writes ∧
    5 ∈ upcoming (waiting (.store true 5 1) (latched 2 State.reset)) ∧
    holding.status.busy = true ∧ holding.platform.dmaCoherent = false ∧ 5 ∈ holding.sharing.dirty ∧
    inRange ⟨5, 1⟩ 5 = true := by decide

/-- EngineBytesAndRaces: the last byte of the destination of SHA1_FINAL in progress, and of a completed command whose
completion the host has not read, with a load and a store of it next. -/
theorem witness_in_use : DestinationInUse (waiting (.load true 19) (latched 3 State.reset)) (19#64).toNat ∧
    DestinationInUse (waiting (.load true 19) (completeWith [⟨0, 20⟩] .ok State.reset)) (19#64).toNat ∧
    (waiting (.store true 19 1) (completeWith [⟨0, 20⟩] .ok State.reset)).Inv ∧
    (waiting (.store true 19 1) (completeWith [⟨0, 20⟩] .ok State.reset)).agenda = [.store true 19 1] ∧
    inRanges (waiting (.store true 19 1) (completeWith [⟨0, 20⟩] .ok State.reset)).sharing.unseen (19#64).toNat = true :=
  ⟨.inl ⟨rfl, .sha1Final, by decide, by decide⟩, .inr (by decide), by decide, rfl, by decide⟩

/-- EngineBytesAndRaces: turns among which there is no read of BUSY = 0, a CMD write next, and a byte that another agent has
read of the destination of an earlier command. -/
theorem witness_turns : NoIdleRead State.reset [.engine, .reset, .store true 5 1] ∧ State.reset.status.busy = false ∧
    (waiting (wr State.reset .cmd 2) State.reset).agenda = [wr (waiting (wr State.reset .cmd 2) State.reset) .cmd 2] ∧
    5 ∈ (agentStore false 5 1 holding).sharing.stale ∧
    19 ∈ (agentLoad true 19 (latched 2 (completeWith [⟨0, 20⟩] .ok State.reset))).sharing.reads ∧
    inRanges (agentLoad true 19 (latched 2 (completeWith [⟨0, 20⟩] .ok State.reset))).sharing.unseen 19 = true :=
  ⟨by simp [NoIdleRead], by decide, by decide, by decide, by decide, by decide⟩

/-- SHA1_FINAL in progress after reset, with its destination at 0, whose last byte another agent has read. -/
def raced : State := agentLoad true 19 (latched 3 State.reset)

/-- EngineBytesAndRaces, SequenceError, NoPartialOutput: a raced byte of the destination of a command that ends in
ERR_SEQUENCE. -/
theorem witness_raced : raced.Inv ∧ decode raced.cmdlat = .ok .sha1Final ∧ Raced .sha1Final raced 19 ∧ raced.status.ctxValid = false ∧
    ∃ t, exec .sha1Final raced = .next t ∧ t.status.result = .errSequence :=
  ⟨by decide, by decide, by decide, by decide, complete .sha1Final .errSequence raced, rfl, rfl⟩

/-- ReadFragsInOrder, Sha1VectorCompletes: a table of three fragments, and no fragment at all. -/
theorem witness_frags : FragsAdmitted (setup 0x5000 3 0 0 0x2000 0 tableP6) 0x5000 3 ∧
    FragsAdmitted State.reset 0 0 := by decide +kernel

/-- After reset, without coherence, with a list of turns. -/
def incoherent (turns : List Turn) : State := { State.reset with platform := ⟨0, [], [], false⟩, agenda := turns }

/-- The hypotheses of StoreBeforeAcceptanceSeen on the state alone, for the next command word 3 and no turn after the store. -/
abbrev storeHypotheses (s : State) : Prop :=
  s.Inv ∧ s.status.busy = false ∧ s.sharing.unseen = [] ∧ (5#64).toNat ∉ upcoming (accept 3 { s with agenda := [] })

/-- StoreBeforeAcceptanceSeen: a cached store on a coherent platform; without coherence one not through the caches, and one
through them that is cleaned. -/
theorem witness_store : storeHypotheses (waiting (.store true 5 6) State.reset) ∧
    (waiting (.store true 5 6) State.reset).platform.dmaCoherent = true ∧
    storeHypotheses (incoherent [.store false 5 6]) ∧ (5#64).toNat ∉ (incoherent [.store false 5 6]).sharing.dirty ∧
    storeHypotheses (incoherent [.store true 5 6, .clean ⟨5, 1⟩]) ∧ inRange ⟨5, 1⟩ (5#64).toNat = true ∧
    (incoherent [.store true 5 6, .clean ⟨5, 1⟩]).platform.dmaCoherent = false :=
  ⟨⟨by decide, by decide, by decide, by decide⟩, by decide, ⟨by decide, by decide, by decide, by decide⟩, by decide,
    ⟨by decide, by decide, by decide, by decide⟩, by decide, by decide⟩

/-- A context with a bit count. -/
def counted (n : BitVec 64) : Ctx := { initCtx Ctx.zero with count := n }

/-- AbsorbShort and FinishCompressions: the fill levels where the clauses meet. FillFromCount: contexts that differ above the
fill level only. -/
theorem witness_fill : (counted 0x1B8).fill = 55 ∧ (counted 0x1C0).fill = 56 ∧ (counted 0x1F8).fill = 63 ∧
    (counted 0).fill + 63 ≤ 63 ∧ 63 < (counted 0).fill + 64 ∧ 63 < (counted 0x1F8).fill + 1 ∧
    (toBytes 64 (hex 1 1)).toList.take (counted 0).fill = (counted 0).buf.toList.take (counted 0).fill := by decide

/-- ScheduleInPlace: the last round without an update, the first with one, and the last round of each phase. -/
theorem witness_schedule : 15 < 16 ∧ 16 ≤ 16 ∧ 19 < 20 ∧ 39 < 40 ∧ 59 < 60 ∧ 79 < 80 := by decide

/-- HmacNestedHashes: keys of 64 and 65 bytes. -/
theorem witness_key : (zeros 64).length ≤ 64 ∧ 64 < (zeros 65).length := by decide

/-- Sha1UpdateCompletes: with data, and with no data at an address that would wrap. -/
theorem witness_update : (initialized (setup 0x1000 70 0 0 0 0 ramp)).status.ctxValid = true ∧
    Admitted (initialized (setup 0x1000 70 0 0 0 0 ramp)) .read 0x1000 70 ∧
    Admitted (initialized (setup 0x1000 70 0 0 0 0 ramp)) .read (2 ^ 64) 0 := by decide

/-- Sha1FinalCompletes: a destination that ends at the last byte of memory. -/
theorem witness_final : (initialized (setup 0 0 0 0 (2 ^ 64 - 20) 0 [])).mem.wf ∧
    (initialized (setup 0 0 0 0 (2 ^ 64 - 20) 0 [])).status.ctxValid = true ∧
    (initialized (setup 0 0 0 0 (2 ^ 64 - 20) 0 [])).sharing.writes = [] ∧
    (initialized (setup 0 0 0 0 (2 ^ 64 - 20) 0 [])).sharing.reads = [] ∧
    Admitted (initialized (setup 0 0 0 0 (2 ^ 64 - 20) 0 [])) .write
      (initialized (setup 0 0 0 0 (2 ^ 64 - 20) 0 [])).ops.dstAddr 20 := by decide

/-- SequenceError. -/
theorem witness_sequence : State.reset.status.ctxValid = false := by decide

/-- Sha1VectorCompletes. -/
theorem witness_vector : (setup 0x5000 3 0 0 0x2000 0 tableP6).mem.wf ∧
    FragsAdmitted (setup 0x5000 3 0 0 0x2000 0 tableP6) (setup 0x5000 3 0 0 0x2000 0 tableP6).ops.srcAddr
      (setup 0x5000 3 0 0 0x2000 0 tableP6).ops.srcLen.toNat ∧
    (setup 0x5000 3 0 0 0x2000 0 tableP6).sharing.writes = [] ∧
    (setup 0x5000 3 0 0 0x2000 0 tableP6).sharing.reads = [] ∧
    Admitted (setup 0x5000 3 0 0 0x2000 0 tableP6) .write (setup 0x5000 3 0 0 0x2000 0 tableP6).ops.dstAddr 20 := by
  decide +kernel

/-- HmacVectorCompletes, with the state of program P4. -/
theorem witness_hmacVector : (setup 0x5000 2 0x4000 20 0x2000 0 tableP4).mem.wf ∧
    (setup 0x5000 2 0x4000 20 0x2000 0 tableP4).sharing = Sharing.empty ∧
    (setup 0x5000 2 0x4000 20 0x2000 0 tableP4).ops.srcLen.toNat ≤ 5 ∧
    Admitted (setup 0x5000 2 0x4000 20 0x2000 0 tableP4) .read
      (setup 0x5000 2 0x4000 20 0x2000 0 tableP4).ops.keyAddr 20 ∧
    FragsAdmitted (setup 0x5000 2 0x4000 20 0x2000 0 tableP4) (setup 0x5000 2 0x4000 20 0x2000 0 tableP4).ops.srcAddr
      (setup 0x5000 2 0x4000 20 0x2000 0 tableP4).ops.srcLen.toNat ∧
    Admitted (setup 0x5000 2 0x4000 20 0x2000 0 tableP4) .write
      (setup 0x5000 2 0x4000 20 0x2000 0 tableP4).ops.dstAddr 20 := by decide +kernel

/-- FragmentCountError: the smallest count that fails. -/
theorem witness_fragment_count : 5 < (setup 0 6 0 0 0 0 []).ops.srcLen.toNat ∧
    ∃ t, exec .hmacVector (setup 0 6 0 0 0 0 []) = .next t ∧ t.status.result = .errFragCount := ⟨by decide, _, rfl, rfl⟩

/-- HmacCompletes, with no key and no data. -/
theorem witness_hmac : (setup 0 0 0 0 0x2000 0 []).mem.wf ∧ (setup 0 0 0 0 0x2000 0 []).sharing = Sharing.empty ∧
    Admitted (setup 0 0 0 0 0x2000 0 []) .read (setup 0 0 0 0 0x2000 0 []).ops.keyAddr
      (setup 0 0 0 0 0x2000 0 []).ops.keyLen.toNat ∧
    Admitted (setup 0 0 0 0 0x2000 0 []) .read (setup 0 0 0 0 0x2000 0 []).ops.srcAddr
      (setup 0 0 0 0 0x2000 0 []).ops.srcLen.toNat ∧
    Admitted (setup 0 0 0 0 0x2000 0 []) .write (setup 0 0 0 0 0x2000 0 []).ops.dstAddr 20 := by decide

/-- The state of program P3 with a version tag. -/
def stateP3 (version : Nat) : State := setup 0x3000 99 0x4000 16 0x3051 version frameP3

/-- EapolMicCompletes, MicIgnoresOldField and UnsupportedVersion, with the state of program P3; the other memory is the frame
with its field zero. -/
theorem witness_mic : (stateP3 2).mem.wf ∧ (stateP3 2).sharing = Sharing.empty ∧ (stateP3 2).ops.version = 2 ∧
    (stateP3 3).ops.version ≠ 2 ∧
    Admitted (stateP3 2) .write (stateP3 2).ops.dstAddr 16 ∧
    Admitted (stateP3 2) .read (stateP3 2).ops.keyAddr (stateP3 2).ops.keyLen.toNat ∧
    Admitted (stateP3 2) .read (stateP3 2).ops.srcAddr (stateP3 2).ops.srcLen.toNat ∧
    (frameP3.writeBytes 0x3051 (zeros 16)).wf := by decide +kernel

/-- MicIgnoresOldField: EAPOL_MIC answers a next state, and a memory that differs in the field only. -/
theorem witness_mic_next : (∃ t, exec .eapolMic (stateP3 2) = .next t) ∧
    ∀ a, ¬ InDestination .eapolMic (stateP3 2) a →
      (frameP3.writeBytes 0x3051 (zeros 16)).read a = (stateP3 2).mem.read a := by
  obtain ⟨z, hz⟩ : ∃ z, z = afterWrite (stateP3 2) (stateP3 2).ops.dstAddr (zeros 16) := ⟨_, rfl⟩
  have hz' : z.ops = (stateP3 2).ops := by rw [hz, afterWrite_ops]
  have hc : ∀ k a n, checkAccess z k a n = checkAccess (stateP3 2) k a n := fun k a n => by
    rw [hz, checkAccess_afterWrite]
  have h : (stateP3 2).ops.dstAddr = 0x3051 := by decide
  refine ⟨⟨_, (execEapolMic_of_check hz (by decide)).trans ((if_pos (by decide)).trans (hashFrame_of_checks
    (by rw [hc, hz']; decide) (by rw [hc, hz']; decide) (by rw [hc, hz']; decide)))⟩, fun a ha => ?_⟩
  rw [read_writeBytes_outside _ _ _ (by rw [zeros_length, ← h]; exact ha)]
  rfl

/-- The key and "Hi " of program P4, with a table of one descriptor at 0x5000. -/
def stateOne : State := setup 0x5100 3 0x4000 20 0x2000 0 tableP4

/-- HmacFormsAgree: HMAC over "Hi " answers a next state, and the first descriptor of program P4 names the same range. -/
theorem witness_forms : stateOne.mem.wf ∧ stateOne.DutiesKept ∧ (∃ t, exec .hmac stateOne = .next t) ∧
    Admitted stateOne .read (0x5000#64).toNat 16 ∧
    fragAddr ((List.range 16).map fun i => stateOne.mem.read ((0x5000#64).toNat + i)) 0 = stateOne.ops.srcAddr ∧
    fragLen ((List.range 16).map fun i => stateOne.mem.read ((0x5000#64).toNat + i)) 0 = stateOne.ops.srcLen.toNat := by
  refine ⟨by decide +kernel, by decide, ?_, by decide +kernel, by decide +kernel, by decide +kernel⟩
  simp only [exec, execHmac, memRead_ok_iff.2 ⟨(by decide : checkAccess stateOne .read stateOne.ops.keyAddr stateOne.ops.keyLen.toNat = .ok ()), rfl⟩,
    memRead_ok_iff.2 ⟨(by decide : checkAccess stateOne .read stateOne.ops.srcAddr stateOne.ops.srcLen.toNat = .ok ()), rfl⟩]
  exact ⟨_, writeAndComplete_of_check (by rw [hmacFn_length]; decide)⟩

/-- CompletionFrame, MemoryFrame, ResultCodeOfCommand, CtxValidLifecycle, NoPartialOutput: a command that completes with OK
and one that completes with an error. -/
theorem witness_next : (∃ t, exec .sha1Init State.reset = .next t) ∧
    ∃ t, exec .sha1Final State.reset = .next t ∧ t.status.result ≠ .ok := ⟨⟨_, rfl⟩, _, rfl, by decide⟩

/-- CompositeLeavesContext: HMAC over "Hi ". -/
theorem witness_composite : Instr.hmac ∉ [Instr.sha1Init, Instr.sha1Update, Instr.sha1Final] ∧
    ∃ t, exec .hmac stateOne = .next t := ⟨by decide, witness_forms.2.2.1⟩

end Sys2Proof.Tests
end

/-! ## The state and its window (10_state.md)

First what the register window does with one access of the host, then what each turn leaves alone, then the invariant, and
last the obligations these facts settle. -/

namespace Sys2Proof.Machine

/-! ### Command words -/

/-- A word is its reserved field above its opcode field (R70). -/
theorem rsvField_append_opcodeField (v : Word) : rsvField v ++ opcodeField v = v :=
  BitVec.extractLsb'_append_extractLsb' (w := 24) (len := 8)

/-- An opcode that selects a command is the opcode of that command's word (R73). -/
theorem opcodeField_of_decodeOpcode {op : BitVec 8} {i : Instr} (h : decodeOpcode op = .ok i) :
    op = opcodeField (encode i) := by
  unfold decodeOpcode at h
  apply BitVec.eq_of_toNat_eq
  split at h <;> cases h <;> assumption

theorem decode_encode (i : Instr) : decode (encode i) = .ok i := by cases i <;> decide

/-- Only the command's own word selects it (R73). -/
theorem decode_eq_ok_iff {v : Word} {i : Instr} : decode v = .ok i ↔ v = encode i := by
  refine ⟨fun h => ?_, fun h => h ▸ decode_encode i⟩
  unfold decode at h
  split at h
  · rename_i hr
    have hi : rsvField (encode i) = 0 := by cases i <;> decide
    rw [← rsvField_append_opcodeField v, ← rsvField_append_opcodeField (encode i), hr, hi,
      opcodeField_of_decodeOpcode h]
  · cases h

/-- The context commands in progress are those of the words 1, 2 and 3 (R29, R40). -/
theorem contextBusy_iff {s : State} :
    contextBusy s = true ↔ s.status.busy = true ∧ s.cmdlat ∈ [0x00000001#32, 0x00000002#32, 0x00000003#32] := by
  have hmem : s.cmdlat ∈ [0x00000001#32, 0x00000002#32, 0x00000003#32] ↔
      ∃ i, decode s.cmdlat = .ok i ∧ usesContext i = true := by
    constructor
    · simp only [List.mem_cons, List.not_mem_nil, or_false]
      rintro (h | h | h)
      · exact ⟨.sha1Init, decode_eq_ok_iff.2 h, rfl⟩
      · exact ⟨.sha1Update, decode_eq_ok_iff.2 h, rfl⟩
      · exact ⟨.sha1Final, decode_eq_ok_iff.2 h, rfl⟩
    · rintro ⟨i, hi, hu⟩
      rw [decode_eq_ok_iff.1 hi]
      cases i with
      | sha1Init | sha1Update | sha1Final => decide
      | _ => cases hu
  rw [hmem, contextBusy]
  cases decode s.cmdlat <;> simp

/-- The word of a command, placed by `withFetchWord`, is that word. -/
theorem withFetchWord_encode (s : State) (i : Instr) :
    s.withFetchWord 32 (encode i).toNat = placeCommand (encode i) s := by
  rw [State.withFetchWord, Nat.mod_eq_of_lt (encode i).isLt, BitVec.ofNat_toNat, BitVec.setWidth_eq]

/-! ### The register map (R21, R22) -/

theorem regAt_regOffset (r : Reg) : regAt (regOffset r) = some r := by
  cases r with
  | ctxH k => revert k; decide
  | ctxBuf k => revert k; decide
  | _ => decide

theorem mem_ctxRegs {r : Reg} : r ∈ ctxRegs ↔ isCtxReg r = true := by
  cases r with
  | ctxH k => revert k; decide
  | ctxBuf k => revert k; decide
  | _ => decide

/-- The value of a register depends on the operands, STATUS and the visible context only. -/
theorem regValue_congr {s t : State} (ho : t.ops = s.ops) (hs : t.status = s.status) (hc : t.ctx = s.ctx) (r : Reg) :
    regValue t r = regValue s r := by
  cases r <;> simp only [regValue, ho, hs, hc]

theorem regValue_operand_congr {s t : State} (ho : t.ops = s.ops) {r : Reg} (hr : r ∈ operandRegs) :
    regValue t r = regValue s r := by
  cases r with
  | cmd | status | ctxH _ | ctxCountLo | ctxCountHi | ctxBuf _ => simp [operandRegs] at hr
  | _ => simp only [regValue, ho]

theorem not_isCtxReg_of_operand {r : Reg} (hr : r ∈ operandRegs) : isCtxReg r = false :=
  (by decide : ∀ q ∈ operandRegs, isCtxReg q = false) r hr

/-! ### How registers lay out what they show (R23, R25, R30, R31) -/

/-- The fields of a word laid out as STATUS is. -/
theorem statusLayout_fields : ∀ (code : BitVec 4) (valid busy : Bool),
    let w := 0#20 ++ code ++ 0#6 ++ BitVec.ofBool valid ++ BitVec.ofBool busy
    w.getLsbD 0 = busy ∧ w.getLsbD 1 = valid ∧ w.extractLsb' 8 4 = code ∧ w.extractLsb' 2 6 = 0 ∧
      w.extractLsb' 12 20 = 0 := by decide

theorem statusWord_fields (t : Status) :
    t.word.getLsbD 0 = t.busy ∧ t.word.getLsbD 1 = t.ctxValid ∧ t.word.extractLsb' 8 4 = t.result.code ∧
      t.word.extractLsb' 2 6 = 0 ∧ t.word.extractLsb' 12 20 = 0 :=
  statusLayout_fields t.result.code t.ctxValid t.busy

/-- A high word above a low one, as a number. -/
theorem append_toNat (hi lo : Word) : (hi ++ lo).toNat = hi.toNat * 2 ^ 32 + lo.toNat := by
  rw [BitVec.toNat_append, ← Nat.shiftLeft_add_eq_or_of_lt lo.isLt, Nat.shiftLeft_eq]

/-- The bit count is its two registers, the high one above the low one (R30). -/
theorem count_eq_halves (c : Ctx) : c.count.toNat = c.countHi.toNat * 2 ^ 32 + c.countLo.toNat := by
  rw [countHi_toNat, countLo_toNat]
  exact (Nat.div_add_mod' _ _).symm

open BitVec in
/-- The bytes of a word put together from four. -/
theorem extractLsb'_byte (b0 b1 b2 b3 : Byte) (j : Fin 4) :
    (b3 ++ b2 ++ b1 ++ b0).extractLsb' (8 * j.val) 8 = [b0, b1, b2, b3].getD j.val 0 := by
  match j with
  | 0 => exact extractLsb'_append_eq_right
  | 1 => exact (extractLsb'_append_eq_of_le (by decide)).trans extractLsb'_append_eq_right
  | 2 =>
    exact (extractLsb'_append_eq_of_le (by decide)).trans
      ((extractLsb'_append_eq_of_le (by decide)).trans extractLsb'_append_eq_right)
  | 3 =>
    exact (extractLsb'_append_eq_of_le (by decide)).trans
      ((extractLsb'_append_eq_of_le (by decide)).trans extractLsb'_append_eq_left)

/-- Byte `j` of a little-endian word is byte `j` of the string (R11). -/
theorem le32_byte (l : List Byte) (j : Fin 4) : (le32 l).extractLsb' (8 * j.val) 8 = l.getD j.val 0 := by
  refine (extractLsb'_byte _ _ _ _ j).trans ?_
  fin_cases j <;> rfl

/-! ### The window on the bus (R9, R32) -/

theorem windowBase_toNat (s : State) : (windowBase s).toNat = 256 * s.platform.basePage.toNat := by
  rw [windowBase, BitVec.toNat_append, ← Nat.shiftLeft_add_eq_or_of_lt (by decide), Nat.shiftLeft_eq]
  simp [Nat.mul_comm]

/-- The accesses the window answers (R32). -/
theorem windowOffset_eq_some_iff {s : State} {addr : Addr} {width offset : Nat} :
    windowOffset s addr width = some offset ↔
      addr.toNat = (windowBase s).toNat + offset ∧ width = 4 ∧ offset % 4 = 0 ∧ offset ≤ 0xFC := by
  simp only [windowOffset, WindowAccess.wf, Bool.and_eq_true, beq_iff_eq, decide_eq_true_eq]
  split
  · rw [Option.ite_none_right_eq_some, Option.some.injEq]
    omega
  · simp only [reduceCtorEq, false_iff]
    omega

theorem windowOffset_isSome_iff {s : State} {addr : Addr} {width : Nat} :
    (windowOffset s addr width).isSome ↔
      (windowBase s).toNat ≤ addr.toNat ∧ width = 4 ∧ addr.toNat ≤ (windowBase s).toNat + 0xFC ∧
        addr.toNat % 4 = 0 := by
  have hb := windowBase_toNat s
  simp only [Option.isSome_iff_exists, windowOffset_eq_some_iff]
  constructor
  · rintro ⟨offset, ha, hw, h4, hle⟩
    omega
  · rintro ⟨hle, hw, htop, h4⟩
    exact ⟨addr.toNat - (windowBase s).toNat, by omega⟩

theorem regOffset_aligned (r : Reg) : regOffset r % 4 = 0 ∧ regOffset r ≤ 0xFC := by
  cases r with
  | ctxH k | ctxBuf k =>
    simp only [regOffset]
    omega
  | _ => decide

/-- The window answers an access to a register at the register's offset. -/
theorem windowOffset_regAddr (s : State) (r : Reg) : windowOffset s (regAddr s r) 4 = some (regOffset r) := by
  have hb := windowBase_toNat s
  have hpage := s.platform.basePage.isLt
  obtain ⟨h4, hle⟩ := regOffset_aligned r
  refine windowOffset_eq_some_iff.2 ⟨?_, rfl, h4, hle⟩
  rw [regAddr, BitVec.toNat_add, BitVec.toNat_ofNat, hb]
  omega

/-! ### One access of the host -/

/-- With a turn waiting, the step is that turn. -/
theorem step_of_agenda {s : State} {turn : Turn} {rest : List Turn} (h : s.agenda = turn :: rest) :
    step s = takeTurn turn { s with agenda := rest } := by
  simp only [step, nextTurn, h]

theorem step_of_write {s : State} {addr : Addr} {width offset : Nat} {v : Word} {rest : List Turn}
    (h : s.agenda = .write addr width v :: rest) (ho : windowOffset s addr width = some offset) :
    step s = .next (writeOffset offset v { s with agenda := rest }) := by
  have ho' : windowOffset { s with agenda := rest } addr width = some offset := ho
  simp only [step_of_agenda h, takeTurn, ho']

theorem step_of_read {s : State} {addr : Addr} {width offset : Nat} {rest : List Turn}
    (h : s.agenda = .read addr width :: rest) (ho : windowOffset s addr width = some offset) :
    step s = .next (readOffset offset { s with agenda := rest }) := by
  have ho' : windowOffset { s with agenda := rest } addr width = some offset := ho
  simp only [step_of_agenda h, takeTurn, ho']

theorem readOffset_of_regAt {offset : Nat} {r : Reg} (h : regAt offset = some r) (s : State) :
    readOffset offset s = readReg r s := by
  simp only [readOffset, h]

theorem readOffset_reserved {offset : Nat} (h : regAt offset = none) (s : State) :
    readOffset offset s = { s with readData := 0 } := by
  simp only [readOffset, h]

theorem writeOffset_busy (offset : Nat) (v : Word) {s : State} (h : s.status.busy = true) : writeOffset offset v s = s := by
  rw [writeOffset, if_pos h]

theorem writeOffset_of_regAt {offset : Nat} {r : Reg} (h : regAt offset = some r) (v : Word) {s : State}
    (hi : s.status.busy = false) : writeOffset offset v s = writeReg r v s := by
  simp [writeOffset, hi, h]

theorem writeOffset_reserved {offset : Nat} (h : regAt offset = none) (v : Word) (s : State) :
    writeOffset offset v s = s := by
  simp [writeOffset, h]

/-- A write to a read-only register is ignored (R33). -/
theorem writeReg_readOnly {r : Reg} (h : r = .status ∨ isCtxReg r = true) (v : Word) (s : State) :
    writeReg r v s = s := by
  cases r with
  | status | ctxH _ | ctxCountLo | ctxCountHi | ctxBuf _ => rfl
  | _ => simp [isCtxReg] at h

theorem writeOffset_readOnly {offset : Nat} {r : Reg} (hr : regAt offset = some r) (h : r = .status ∨ isCtxReg r = true)
    (v : Word) (s : State) : writeOffset offset v s = s := by
  cases hb : s.status.busy with
  | true => exact writeOffset_busy _ _ hb
  | false => rw [writeOffset_of_regAt hr v hb, writeReg_readOnly h]

/-- While BUSY = 1 the step of a host write the window answers only takes the turn (R39). -/
theorem step_of_write_busy {s : State} {addr : Addr} {width offset : Nat} {v : Word} {rest : List Turn}
    (hb : s.status.busy = true) (h : s.agenda = .write addr width v :: rest)
    (ho : windowOffset s addr width = some offset) : step s = .next { s with agenda := rest } := by
  rw [step_of_write h ho, writeOffset_busy]
  exact hb

/-- `WR` of a register while idle. -/
theorem step_of_wr_idle {s : State} {r : Reg} {v : Word} {rest : List Turn} (hi : s.status.busy = false)
    (h : s.agenda = wr s r v :: rest) : step s = .next (writeReg r v { s with agenda := rest }) := by
  rw [step_of_write h (windowOffset_regAddr s r), writeOffset_of_regAt (regAt_regOffset r)]
  exact hi

/-- `RD` of a register. -/
theorem step_of_rd {s : State} {r : Reg} {rest : List Turn} (h : s.agenda = rd s r :: rest) :
    step s = .next (readReg r { s with agenda := rest }) := by
  rw [step_of_read h (windowOffset_regAddr s r), readOffset_of_regAt (regAt_regOffset r)]

/-- A write of an operand register changes the operand registers only: that one holds the value, the others are as before
(R22). -/
theorem writeReg_operand {r : Reg} (hr : r ∈ operandRegs) (v : Word) (s : State) :
    ∃ o, writeReg r v s = { s with ops := o } ∧ regValue { s with ops := o } r = v ∧
      ∀ q, q ≠ r → regValue { s with ops := o } q = regValue s q := by
  cases r with
  | cmd | status | ctxH _ | ctxCountLo | ctxCountHi | ctxBuf _ => simp [operandRegs] at hr
  | _ =>
    refine ⟨_, rfl, rfl, fun q hq => ?_⟩
    cases q <;> simp_all [regValue]

/-- A read changes what the host has read, the draws, and which completed destinations are in use (R33, R62). -/
theorem readReg_frame (r : Reg) (s : State) : ∃ v d u,
    readReg r s = { s with readData := v, draws := d, sharing := { s.sharing with unseen := u } } := by
  unfold readReg observeStatus
  split
  · exact ⟨_, _, _, rfl⟩
  · split
    · split <;> exact ⟨_, _, _, rfl⟩
    · exact ⟨_, _, _, rfl⟩

theorem readOffset_frame (offset : Nat) (s : State) : ∃ v d u,
    readOffset offset s = { s with readData := v, draws := d, sharing := { s.sharing with unseen := u } } := by
  cases h : regAt offset with
  | none => exact ⟨0, s.draws, s.sharing.unseen, readOffset_reserved h s⟩
  | some r => rw [readOffset_of_regAt h]; exact readReg_frame r s

/-- A read that is not of the context of a context command in progress returns the register, and draws nothing. -/
theorem readReg_value {r : Reg} {s : State} (h : ¬ (isCtxReg r = true ∧ contextBusy s = true)) :
    (readReg r s).readData = regValue s r ∧ (readReg r s).draws = s.draws := by
  rw [readReg, if_neg (by simpa using h), observeStatus]
  split
  · split <;> exact ⟨rfl, rfl⟩
  · exact ⟨rfl, rfl⟩

/-- A read of the context of a context command in progress draws (R40). -/
theorem readReg_free {r : Reg} {s : State} (hr : isCtxReg r = true) (hb : contextBusy s = true) :
    readReg r s = { s with readData := Config.freeWord s.draws, draws := s.draws + 1 } := by
  rw [readReg, if_pos (by simp [hr, hb])]

/-- A poll changes what a read of STATUS does, and may put turns on the agenda. -/
theorem pollTurn_frame (s : State) : ∃ v d u turns, pollTurn s =
    { s with readData := v, draws := d, sharing := { s.sharing with unseen := u }, agenda := turns } := by
  obtain ⟨v, d, u, h⟩ := readReg_frame .status s
  rw [pollTurn, h]
  split <;> exact ⟨v, d, u, _, rfl⟩

/-- A host write that answers a next state is at an offset of the window. -/
theorem takeTurn_write_next {addr : Addr} {width : Nat} {v : Word} {s t : State}
    (h : takeTurn (.write addr width v) s = .next t) : ∃ offset, t = writeOffset offset v s := by
  simp only [takeTurn] at h
  split at h <;> cases h
  exact ⟨_, rfl⟩

/-- A host read that answers a next state is at an offset of the window. -/
theorem takeTurn_read_next {addr : Addr} {width : Nat} {s t : State}
    (h : takeTurn (.read addr width) s = .next t) : ∃ offset, t = readOffset offset s := by
  simp only [takeTurn] at h
  split at h <;> cases h
  exact ⟨_, rfl⟩

/-! ### What a command has done by the time it completes -/

/-- What no command changes before it completes: every field but memory, the visible context, CTX_VALID and the stale bytes;
and memory stays canonical. -/
structure RunsTo (s u : State) : Prop where
  ops : u.ops = s.ops
  cmdlat : u.cmdlat = s.cmdlat
  platform : u.platform = s.platform
  agenda : u.agenda = s.agenda
  readData : u.readData = s.readData
  dirty : u.sharing.dirty = s.sharing.dirty
  touched : touched u = touched s
  mem_wf : s.mem.wf → u.mem.wf

theorem RunsTo.refl (s : State) : RunsTo s s := ⟨rfl, rfl, rfl, rfl, rfl, rfl, rfl, id⟩

theorem RunsTo.setCtx {s u : State} (h : RunsTo s u) (c : Ctx) : RunsTo s (setCtx c u) := { h with }

theorem RunsTo.setCtxValid {s u : State} (h : RunsTo s u) (b : Bool) : RunsTo s (setCtxValid b u) := { h with }

theorem RunsTo.afterWrite {s u : State} (h : RunsTo s u) {a : Nat} {v : List Byte}
    (hc : checkAccess u .write a v.length = .ok ()) : RunsTo s (afterWrite u a v) :=
  { h with mem_wf := fun hm => afterWrite_wf (h.mem_wf hm) hc }

/-- What a command that ends with a result code has done to the visible context and CTX_VALID (R27, R29). -/
inductive ContextEffect (s u : State) : Instr → ResultCode → Prop where
  /-- SHA1_INIT starts a hash (R130). -/
  | init : u.ctx = initCtx s.ctx → u.status.ctxValid = true → ContextEffect s u .sha1Init .ok
  /-- SHA1_UPDATE absorbs data (R131). -/
  | update (data : List Byte) : s.status.ctxValid = true → u.ctx = absorb s.ctx data →
      u.status.ctxValid = s.status.ctxValid → ContextEffect s u .sha1Update .ok
  /-- SHA1_FINAL ends the hash (R132). -/
  | final : u.ctx = Ctx.zero → u.status.ctxValid = false → ContextEffect s u .sha1Final .ok
  /-- Any other completion leaves both alone. -/
  | kept {i : Instr} {code : ResultCode} : i ≠ .sha1Init → ¬ (i = .sha1Final ∧ code = .ok) → u.ctx = s.ctx →
      u.status.ctxValid = s.status.ctxValid → ContextEffect s u i code

/-- The write of a result is no effect on the context. -/
theorem ContextEffect.afterWrite {s u : State} {i : Instr} {code : ResultCode} (h : ContextEffect s u i code) (a : Nat)
    (v : List Byte) : ContextEffect s (afterWrite u a v) i code := by
  cases h with
  | init hc hv => exact .init hc hv
  | update data hs hc hv => exact .update data hs hc hv
  | final hc hv => exact .final hc hv
  | kept hi hf hc hv => exact .kept hi hf hc hv

/-- Everything a command that answers a next state has done: it has run to a state that it then completes. -/
theorem exec_next {i : Instr} {s t : State} (h : exec i s = .next t) :
    ∃ code u, t = complete i code u ∧ code ≠ .none ∧ RunsTo s u ∧ ContextEffect s u i code := by
  have start := RunsTo.refl s
  have kept : ∀ {i : Instr} {code : ResultCode}, i ≠ .sha1Init → ¬ (i = .sha1Final ∧ code = .ok) →
      ContextEffect s s i code := fun hi hf => .kept hi hf rfl rfl
  cases i with
  | sha1Init =>
    cases h
    exact ⟨.ok, _, rfl, by decide, (start.setCtx _).setCtxValid _, .init rfl rfl⟩
  | sha1Update =>
    obtain ⟨hv, -, rfl⟩ | ⟨-, rfl⟩ := execSha1Update_next h
    · exact ⟨.ok, _, rfl, by decide, start.setCtx _, .update _ hv rfl rfl⟩
    · exact ⟨.errSequence, _, rfl, by decide, start, kept (by decide) (by decide)⟩
  | sha1Final =>
    obtain ⟨-, hc, rfl⟩ | ⟨-, rfl⟩ := execSha1Final_next h
    · have cleared := (start.setCtx Ctx.zero).setCtxValid false
      exact ⟨.ok, _, rfl, by decide, cleared.afterWrite (by rw [finish_length]; exact hc),
        .afterWrite (.final rfl rfl) _ _⟩
    · exact ⟨.errSequence, _, rfl, by decide, start, kept (by decide) (by decide)⟩
  | sha1Vector =>
    obtain ⟨frags, -, hc, rfl⟩ := execSha1Vector_next h
    exact ⟨.ok, _, rfl, by decide, start.afterWrite (by rwa [sha1_length]),
      .afterWrite (kept (by decide) (by decide)) _ _⟩
  | hmacVector =>
    obtain ⟨-, rfl⟩ | ⟨-, -, frags, -, hc, rfl⟩ := execHmacVector_next h
    · exact ⟨.errFragCount, _, rfl, by decide, start, kept (by decide) (by decide)⟩
    · exact ⟨.ok, _, rfl, by decide, start.afterWrite (by rwa [hmacFn_length]),
        .afterWrite (kept (by decide) (by decide)) _ _⟩
  | hmac =>
    obtain ⟨-, -, hc, rfl⟩ := execHmac_next h
    exact ⟨.ok, _, rfl, by decide, start.afterWrite (by rwa [hmacFn_length]),
      .afterWrite (kept (by decide) (by decide)) _ _⟩
  | eapolMic =>
    obtain ⟨hc, hcases⟩ := execEapolMic_next rfl h
    have zeroed := start.afterWrite (a := s.ops.dstAddr) (v := zeros 16) (by rwa [zeros_length])
    obtain ⟨-, -, -, rfl⟩ | ⟨-, rfl⟩ := hcases
    · exact ⟨.ok, _, rfl, by decide, zeroed.afterWrite (by rwa [micOf_length, checkAccess_afterWrite]),
        .afterWrite (.afterWrite (kept (by decide) (by decide)) _ _) _ _⟩
    · exact ⟨.errVersion, _, rfl, by decide, zeroed, .afterWrite (kept (by decide) (by decide)) _ _⟩

/-- What a completed command leaves alone (R22). -/
theorem exec_commandFrame {i : Instr} {s t : State} (h : exec i s = .next t) : CommandFrame s t := by
  obtain ⟨code, u, rfl, -, hu, -⟩ := exec_next h
  exact ⟨hu.ops, hu.cmdlat, hu.platform, hu.agenda, hu.readData⟩

/-! ### The composite commands and the visible context (R47, R237) -/

/-- The state with another visible context and CTX_VALID. -/
def withContext (c : Ctx) (b : Bool) (s : State) : State := setCtx c (setCtxValid b s)

/-- The outcome with a function applied to the next state. -/
def mapNext (f : State → State) : Host.Outcome State Fault Refusal → Host.Outcome State Fault Refusal
  | .next t => .next (f t)
  | .fault e => .fault e
  | .refused e => .refused e

section
variable (c : Ctx) (b : Bool) (s : State)

@[simp] theorem mapNext_next (f : State → State) (t : State) : mapNext f (.next t) = .next (f t) := rfl

@[simp] theorem mapNext_stop (f : State → State) (e : Stop) : mapNext f e.outcome = e.outcome := by cases e <;> rfl

@[simp] theorem withContext_ops : (withContext c b s).ops = s.ops := rfl

@[simp] theorem memRead_withContext (k a n : Nat) : memRead (withContext c b s) k a n = memRead s k a n :=
  memRead_congr (s := s) (u := withContext c b s) rfl rfl rfl (upcoming_congr rfl rfl rfl) rfl rfl rfl k a n

@[simp] theorem readFrags_withContext (tab n : Nat) : readFrags (withContext c b s) tab n = readFrags s tab n :=
  readFrags_congr (memRead_withContext c b s) tab n

@[simp] theorem complete_withContext (i : Instr) (code : ResultCode) :
    complete i code (withContext c b s) = withContext c b (complete i code s) := rfl

theorem afterWrite_withContext (a : Nat) (v : List Byte) :
    afterWrite (withContext c b s) a v = withContext c b (afterWrite s a v) := by
  have h : destBytes (withContext c b s) a v = destBytes s a v :=
    destBytes_congr (s := s) (u := withContext c b s) rfl rfl a v
  unfold afterWrite
  rw [h]
  rfl

theorem checkAccess_withContext (k : AccessKind) (a n : Nat) :
    checkAccess (withContext c b s) k a n = checkAccess s k a n := rfl

@[simp] theorem writeAndComplete_withContext (i : Instr) (a : Nat) (v : List Byte) :
    writeAndComplete i a v (withContext c b s) = mapNext (withContext c b) (writeAndComplete i a v s) := by
  cases hc : checkAccess s .write a v.length with
  | ok =>
    rw [writeAndComplete_of_check hc, writeAndComplete_of_check (by rwa [checkAccess_withContext]),
      afterWrite_withContext, complete_withContext, mapNext_next]
  | error e =>
    rw [writeAndComplete_of_error hc, writeAndComplete_of_error (by rwa [checkAccess_withContext]), mapNext_stop]

theorem hashFrame_withContext : hashFrame (withContext c b s) = mapNext (withContext c b) (hashFrame s) := by
  simp only [hashFrame, memRead_withContext, withContext_ops, writeAndComplete_withContext]
  split
  · rw [mapNext_stop]
  · split
    · rw [mapNext_stop]
    · rfl

theorem execEapolMic_withContext :
    execEapolMic (withContext c b s) = mapNext (withContext c b) (execEapolMic s) := by
  cases hd : checkAccess s .write s.ops.dstAddr 16 with
  | ok =>
    rw [execEapolMic_of_check rfl hd, execEapolMic_of_check rfl (by rwa [checkAccess_withContext]),
      withContext_ops, afterWrite_withContext, hashFrame_withContext, complete_withContext]
    split <;> rfl
  | error e =>
    have hw : ∀ u : State, u.ops = s.ops → (∀ k a n, checkAccess u k a n = checkAccess s k a n) →
        memWrite u u.ops.dstAddr (zeros 16) = .error e := fun u ho hu =>
      memWrite_error_iff.2 (by rw [hu, ho, zeros_length]; exact hd)
    simp only [execEapolMic, hw s rfl fun _ _ _ => rfl,
      hw (withContext c b s) rfl fun _ _ _ => checkAccess_withContext c b s _ _ _, mapNext_stop]

/-- A composite command answers alike whatever the visible context and CTX_VALID are, and passes them on. -/
theorem exec_withContext {i : Instr} (hi : i ∉ [Instr.sha1Init, Instr.sha1Update, Instr.sha1Final]) :
    exec i (withContext c b s) = mapNext (withContext c b) (exec i s) := by
  cases i with
  | sha1Init | sha1Update | sha1Final => simp at hi
  | sha1Vector =>
    simp only [exec, execSha1Vector, withContext_ops, readFrags_withContext, writeAndComplete_withContext]
    split
    · rw [mapNext_stop]
    · rfl
  | hmacVector =>
    simp only [exec, execHmacVector, withContext_ops, memRead_withContext, readFrags_withContext,
      writeAndComplete_withContext, complete_withContext]
    split
    · rfl
    · split
      · rw [mapNext_stop]
      · split
        · rw [mapNext_stop]
        · rfl
  | hmac =>
    simp only [exec, execHmac, withContext_ops, memRead_withContext, writeAndComplete_withContext]
    split
    · rw [mapNext_stop]
    · split
      · rw [mapNext_stop]
      · rfl
  | eapolMic => exact execEapolMic_withContext c b s

end

/-! ### The notes of other agents' accesses (R62) -/

theorem noteWrites_of_idle {s : State} (h : s.status.busy = false) (l : List Nat) :
    noteWrites s l = s.sharing.writes := by
  simp [noteWrites, h]

theorem noteRead_of_idle {s : State} (h : s.status.busy = false) (a : Nat) : noteRead s a = s.sharing.reads := by
  simp [noteRead, h]

theorem subset_noteWrites (s : State) (l : List Nat) : s.sharing.writes ⊆ noteWrites s l := by
  unfold noteWrites
  split
  · exact List.subset_append_right _ _
  · exact List.Subset.refl _

theorem subset_noteRead (s : State) (a : Nat) : s.sharing.reads ⊆ noteRead s a := by
  unfold noteRead
  split
  · exact List.subset_cons_self _ _
  · exact List.Subset.refl _

theorem mem_noteWrites {s : State} {l : List Nat} {a : Nat} (h : a ∈ noteWrites s l) : a ∈ l ∨ a ∈ s.sharing.writes := by
  unfold noteWrites at h
  split at h
  · exact List.mem_append.1 h
  · exact .inr h

theorem mem_noteRead {s : State} {b a : Nat} (h : a ∈ noteRead s b) : a = b ∨ a ∈ s.sharing.reads := by
  unfold noteRead at h
  split at h
  · exact List.mem_cons.1 h
  · exact .inr h

/-- The notes stay empty while idle, whatever other agents access. -/
theorem State.IdleHasNoNotes.note {s : State} (h : s.IdleHasNoNotes) (hb : s.status.busy = false) (l : List Nat) (a : Nat) :
    noteWrites s l = [] ∧ noteRead s a = [] := by
  rw [noteWrites_of_idle hb, noteRead_of_idle hb]
  exact h hb

theorem dirtyIn_subset (s : State) (r : Range) : dirtyIn s r ⊆ s.sharing.dirty :=
  List.filter_subset_self s.sharing.dirty

/-- Noting writes and a read of bytes of memory notes bytes of memory only. -/
theorem notes_in_memory {s : State} (h : s.NotesInMemory) {l : List Nat} (hl : ∀ a ∈ l, a < 2 ^ 64) :
    ∀ a ∈ noteWrites s l ++ s.sharing.reads, a < 2 ^ 64 := by
  intro a ha
  obtain ha | ha := List.mem_append.1 ha
  · obtain ha | ha := mem_noteWrites ha
    · exact hl a ha
    · exact h.2 a (List.mem_append_left _ ha)
  · exact h.2 a (List.mem_append_right _ ha)

/-! ### What other turns leave of a command in progress (R39, R40, R62) -/

/-- What no turn but the engine's and reset changes while a command is in progress: the latch, the operands, the visible
context, STATUS and scratch; and every note of another agent's access is kept. -/
structure CommandKept (s t : State) : Prop where
  cmdlat : t.cmdlat = s.cmdlat
  ops : t.ops = s.ops
  ctx : t.ctx = s.ctx
  status : t.status = s.status
  scratch : t.scratch = s.scratch
  writes : s.sharing.writes ⊆ t.sharing.writes
  reads : s.sharing.reads ⊆ t.sharing.reads

theorem CommandKept.refl (s : State) : CommandKept s s :=
  ⟨rfl, rfl, rfl, rfl, rfl, List.Subset.refl _, List.Subset.refl _⟩

/-- Writes are ignored, reads and polls have no side effect on a register, and the turns of other agents and of the caches
act on memory and the notes only. -/
theorem takeTurn_commandKept {turn : Turn} {s t : State} (hb : s.status.busy = true) (hengine : turn ≠ .engine)
    (hreset : turn ≠ .reset) (h : takeTurn turn s = .next t) : CommandKept s t := by
  have same := CommandKept.refl s
  cases turn with
  | engine => exact absurd rfl hengine
  | reset => exact absurd rfl hreset
  | write addr width v =>
    obtain ⟨offset, rfl⟩ := takeTurn_write_next h
    rwa [writeOffset_busy offset v hb]
  | read addr width =>
    obtain ⟨offset, rfl⟩ := takeTurn_read_next h
    obtain ⟨w, d, u, hread⟩ := readOffset_frame offset s
    rw [hread]
    exact { same with }
  | poll =>
    cases h
    obtain ⟨w, d, u, turns, hpoll⟩ := pollTurn_frame s
    rw [hpoll]
    exact { same with }
  | store cached addr v =>
    cases h
    exact { same with writes := subset_noteWrites s _ }
  | load cached addr =>
    cases h
    exact { same with reads := subset_noteRead s _ }
  | clean r =>
    cases h
    exact { same with writes := subset_noteWrites s _ }
  | invalidate r =>
    cases h
    exact { same with writes := subset_noteWrites s _ }

/-! ### The invariant, turn by turn -/

/-- R46 in numbers. -/
theorem extractLsb'_three_eq_zero_iff (x : BitVec 64) : x.extractLsb' 0 3 = 0 ↔ x.toNat % 8 = 0 := by
  rw [← BitVec.toNat_inj, BitVec.extractLsb'_toNat]
  rfl

/-- Absorbing whole bytes keeps a whole number of bytes in the count. -/
theorem addCount_whole_bytes {x : BitVec 64} (h : x.extractLsb' 0 3 = 0) (n : Nat) :
    (addCount x n).extractLsb' 0 3 = 0 := by
  rw [extractLsb'_three_eq_zero_iff] at h ⊢
  rw [addCount_toNat]
  omega

@[simp] theorem initCtx_count (c : Ctx) : (initCtx c).count = 0 := rfl

/-- What a command has done to the context keeps it zero while CTX_VALID = 0, and its count a whole number of bytes. -/
theorem ContextEffect.keeps {s u : State} {i : Instr} {code : ResultCode} (h : ContextEffect s u i code)
    (hz : s.InvalidCtxZero) (hw : s.CountWholeBytes) : u.InvalidCtxZero ∧ u.CountWholeBytes := by
  cases h with
  | init hc hv =>
    exact ⟨fun hf => absurd (hv.symm.trans hf) (by decide), by rw [State.CountWholeBytes, hc, initCtx_count]; decide⟩
  | update data hs hc hv =>
    refine ⟨fun hf => absurd (hs.symm.trans (hv.symm.trans hf)) (by decide), ?_⟩
    rw [State.CountWholeBytes, hc, absorb_count]
    exact addCount_whole_bytes hw _
  | final hc hv => exact ⟨fun _ => hc, by rw [State.CountWholeBytes, hc]; decide⟩
  | kept _ _ hc hv => exact ⟨fun hf => hc.trans (hz (hv.symm.trans hf)), by rwa [State.CountWholeBytes, hc]⟩

/-- A completion sets up the parts of the invariant that speak of BUSY and the notes (R36, R38). -/
theorem completeWith_inv {s : State} (hm : s.mem.wf) (hz : s.InvalidCtxZero) (hw : s.CountWholeBytes)
    (hn : s.NotesInMemory) (dests : List Range) (code : ResultCode) : (completeWith dests code s).Inv :=
  ⟨raceDestinations_wf dests hm hn.2, rfl, fun hb => absurd hb (by simp), hz, hw, fun _ => ⟨rfl, rfl⟩, hn.1,
    fun _ ha => absurd ha List.not_mem_nil⟩

theorem exec_inv {i : Instr} {s t : State} (hs : s.Inv) (h : exec i s = .next t) : t.Inv := by
  obtain ⟨hm, -, -, hz, hw, -, hn⟩ := hs
  obtain ⟨code, u, rfl, -, hu, he⟩ := exec_next h
  obtain ⟨hz', hw'⟩ := he.keeps hz hw
  refine completeWith_inv (hu.mem_wf hm) hz' hw' ?_ _ _
  rwa [State.NotesInMemory, hu.dirty, hu.touched]

/-- What the engine's turn can do: run the latched command, complete an illegal word, or nothing (R41, R204, R219). -/
theorem engineTurn_next {s t : State} (h : engineTurn s = .next t) :
    (∃ i, exec i s = .next t) ∨ t = completeIllegal s ∨ t = s := by
  unfold engineTurn at h
  split at h
  · split at h
    · exact .inl ⟨_, h⟩
    · exact .inr (.inl (by simpa using h.symm))
  · exact .inr (.inr (by simpa using h.symm))

theorem engineTurn_keeps {s t : State} (hs : s.Inv) (h : engineTurn s = .next t) : t.Inv ∧ t.platform = s.platform := by
  obtain ⟨i, h⟩ | rfl | rfl := engineTurn_next h
  · obtain ⟨-, -, hp, -, -⟩ := exec_commandFrame h
    exact ⟨exec_inv hs h, hp⟩
  · obtain ⟨hm, -, -, hz, hw, -, hn⟩ := hs
    exact ⟨completeWith_inv hm hz hw hn [] .errIllegalCmd, rfl⟩
  · exact ⟨hs, rfl⟩

/-- Acceptance clears RESULT and the notes (R37). -/
theorem accept_inv {s : State} (hs : s.Inv) (v : Word) : (accept v s).Inv := by
  obtain ⟨hm, hsc, -, hz, hw, -, hn⟩ := hs
  exact ⟨hm, hsc, fun _ => rfl, hz, hw, fun _ => ⟨rfl, rfl⟩, hn.1, fun _ ha => absurd ha List.not_mem_nil⟩

theorem writeReg_inv {s : State} (hs : s.Inv) (r : Reg) (v : Word) : (writeReg r v s).Inv := by
  cases r with
  | cmd => exact accept_inv hs v
  | _ => exact hs

theorem writeReg_platform (r : Reg) (v : Word) (s : State) : (writeReg r v s).platform = s.platform := by
  cases r <;> rfl

/-- A write of an offset is a write of a register, or changes nothing. -/
theorem writeOffset_cases (offset : Nat) (v : Word) (s : State) :
    writeOffset offset v s = s ∨ ∃ r, writeOffset offset v s = writeReg r v s := by
  cases hb : s.status.busy with
  | true => exact .inl (writeOffset_busy offset v hb)
  | false =>
    cases hr : regAt offset with
    | none => exact .inl (writeOffset_reserved hr v s)
    | some r => exact .inr ⟨r, writeOffset_of_regAt hr v hb⟩

theorem writeOffset_inv {s : State} (hs : s.Inv) (offset : Nat) (v : Word) : (writeOffset offset v s).Inv := by
  obtain h | ⟨r, h⟩ := writeOffset_cases offset v s <;> rw [h]
  · exact hs
  · exact writeReg_inv hs r v

theorem writeOffset_platform (offset : Nat) (v : Word) (s : State) : (writeOffset offset v s).platform = s.platform := by
  obtain h | ⟨r, h⟩ := writeOffset_cases offset v s <;> rw [h]
  exact writeReg_platform r v s

/-- An aborted destination is drawn inside system memory only (R50, R231). -/
theorem abortRange_mem_wf {s : State} (hm : s.mem.wf) (r : Range) : (abortRange s r).mem.wf := by
  by_cases h : r.addr ≤ 2 ^ 64
  · exact drawBytes_wf hm _ _ (by omega)
  · have hn : min r.len (2 ^ 64 - r.addr) = 0 := by omega
    simp only [abortRange, hn, drawBytes]
    exact hm

theorem foldl_abortRange_keeps (rs : List Range) {s : State} (hm : s.mem.wf) :
    (rs.foldl abortRange s).mem.wf ∧ (rs.foldl abortRange s).platform = s.platform ∧
      (rs.foldl abortRange s).sharing.dirty = s.sharing.dirty := by
  induction rs generalizing s with
  | nil => exact ⟨hm, rfl, rfl⟩
  | cons r rs ih => exact ih (abortRange_mem_wf hm r)

theorem resetEngine_inv {s : State} (hm : s.mem.wf) (hd : ∀ a ∈ s.sharing.dirty, a < 2 ^ 64) : (resetEngine s).Inv :=
  ⟨hm, rfl, fun _ => rfl, fun _ => rfl, by rw [State.CountWholeBytes, resetEngine_ctx]; decide, fun _ => ⟨rfl, rfl⟩, hd,
    fun _ ha => absurd ha List.not_mem_nil⟩

theorem resetTurn_inv {s : State} (hs : s.Inv) : (resetTurn s).Inv := by
  obtain ⟨hm, -, -, -, -, -, hd, -⟩ := hs
  unfold resetTurn
  split
  · obtain ⟨hm', -, hd'⟩ := foldl_abortRange_keeps (latchedDestination s) hm
    refine resetEngine_inv hm' fun a ha => hd a ?_
    rw [← hd']
    exact ha
  · exact resetEngine_inv hm hd

theorem resetTurn_platform {s : State} (hs : s.Inv) : (resetTurn s).platform = s.platform := by
  obtain ⟨hm, -⟩ := hs
  unfold resetTurn
  split
  · obtain ⟨-, hp, -⟩ := foldl_abortRange_keeps (latchedDestination s) hm
    exact hp
  · rfl

theorem agentStore_inv {s : State} (hs : s.Inv) (cached : Bool) {a : Nat} (ha : a < 2 ^ 64) (v : Byte) :
    (agentStore cached a v s).Inv := by
  obtain ⟨hm, hsc, hb, hz, hw, hi, hn⟩ := hs
  refine ⟨write_wf hm ha _, hsc, hb, hz, hw, fun hf => ?_, fun b hmem => ?_, ?_⟩
  · exact ⟨(hi.note hf [a] a).1, (hi hf).2⟩
  · simp only [agentStore] at hmem
    split at hmem
    · obtain rfl | hmem := List.mem_cons.1 hmem
      · exact ha
      · exact hn.1 b hmem
    · exact hn.1 b hmem
  · exact notes_in_memory hn (by simpa using ha)

theorem agentLoad_inv {s : State} (hs : s.Inv) (cached : Bool) {a : Nat} (ha : a < 2 ^ 64) :
    (agentLoad cached a s).Inv := by
  obtain ⟨hm, hsc, hb, hz, hw, hi, hn⟩ := hs
  refine ⟨?_, hsc, hb, hz, hw, fun hf => ?_, hn.1, fun b hmem => ?_⟩
  · simp only [agentLoad]
    split
    · exact write_wf hm ha _
    · exact hm
  · exact ⟨(hi hf).1, (hi.note hf [] a).2⟩
  · obtain hmem | hmem := List.mem_append.1 hmem
    · exact hn.2 b (List.mem_append_left _ hmem)
    · obtain rfl | hmem := mem_noteRead hmem
      · exact ha
      · exact hn.2 b (List.mem_append_right _ hmem)

/-- A cache operation draws bytes the host has not cleaned, notes them as written, and forgets them. -/
theorem cacheOperation_keeps {s : State} (hs : s.Inv) (r : Range) (p : Nat → Bool) :
    (drawEach s.draws .cacheOperation s.mem ((dirtyIn s r).filter p)).wf ∧
      (s.status.busy = false → noteWrites s (dirtyIn s r) = [] ∧ s.sharing.reads = []) ∧
      (∀ a ∈ s.sharing.dirty.filter (fun a => !inRange r a), a < 2 ^ 64) ∧
      ∀ a ∈ noteWrites s (dirtyIn s r) ++ s.sharing.reads, a < 2 ^ 64 := by
  obtain ⟨hm, -, -, -, -, hi, hn⟩ := hs
  have hd : ∀ a ∈ dirtyIn s r, a < 2 ^ 64 := fun a ha => hn.1 a (dirtyIn_subset s r ha)
  exact ⟨drawEach_wf hm _ _ fun a ha => hd a (List.mem_filter.1 ha).1, fun hf => ⟨(hi.note hf _ 0).1, (hi hf).2⟩,
    fun a ha => hn.1 a (List.mem_filter.1 ha).1, notes_in_memory hn hd⟩

theorem cacheClean_inv {s : State} (hs : s.Inv) (r : Range) : (cacheClean r s).Inv := by
  obtain ⟨hm, hi, hd, ht⟩ := cacheOperation_keeps hs r fun a => s.sharing.stale.contains a || inRanges s.sharing.unseen a
  obtain ⟨-, hsc, hb, hz, hw, -, -⟩ := hs
  exact ⟨hm, hsc, hb, hz, hw, hi, hd, ht⟩

theorem cacheInvalidate_inv {s : State} (hs : s.Inv) (r : Range) : (cacheInvalidate r s).Inv := by
  obtain ⟨hm, hi, hd, ht⟩ := cacheOperation_keeps hs r fun a => !s.sharing.stale.contains a
  obtain ⟨-, hsc, hb, hz, hw, -, -⟩ := hs
  exact ⟨hm, hsc, hb, hz, hw, hi, hd, ht⟩

/-- A turn that answers a next state keeps the invariant and the platform. -/
theorem takeTurn_keeps {turn : Turn} {s t : State} (hs : s.Inv) (h : takeTurn turn s = .next t) :
    t.Inv ∧ t.platform = s.platform := by
  cases turn with
  | write addr width v =>
    obtain ⟨offset, rfl⟩ := takeTurn_write_next h
    exact ⟨writeOffset_inv hs offset v, writeOffset_platform offset v s⟩
  | read addr width =>
    obtain ⟨offset, rfl⟩ := takeTurn_read_next h
    obtain ⟨v, d, u, h⟩ := readOffset_frame offset s
    rw [h]
    exact ⟨hs, rfl⟩
  | poll =>
    cases h
    obtain ⟨v, d, u, turns, h⟩ := pollTurn_frame s
    rw [h]
    exact ⟨hs, rfl⟩
  | engine => exact engineTurn_keeps hs h
  | reset =>
    cases h
    exact ⟨resetTurn_inv hs, resetTurn_platform hs⟩
  | store cached addr v =>
    cases h
    exact ⟨agentStore_inv hs cached addr.isLt v, rfl⟩
  | load cached addr =>
    cases h
    exact ⟨agentLoad_inv hs cached addr.isLt, rfl⟩
  | clean r =>
    cases h
    exact ⟨cacheClean_inv hs r, rfl⟩
  | invalidate r =>
    cases h
    exact ⟨cacheInvalidate_inv hs r, rfl⟩

/-! ### The obligations -/

/-- Settles O24: each turn keeps the invariant, and so does the engine's step when no turn is waiting. -/
theorem stepKeepsInv : Obligations.StepKeepsInv := by
  intro s t hs h
  cases ha : s.agenda with
  | nil =>
    exact engineTurn_keeps hs (by simpa only [step, nextTurn, ha] using h)
  | cons turn rest =>
    rw [step_of_agenda ha] at h
    exact takeTurn_keeps (s := { s with agenda := rest }) hs h

/-- Settles O8: the write is an acceptance, and while the command is in progress no host write has an effect. -/
theorem cmdWriteAccepted : Obligations.CmdWriteAccepted := by
  intro s v rest hi h
  refine ⟨accept v { s with agenda := rest }, step_of_wr_idle hi h, rfl, rfl, rfl, rfl, rfl, rfl, rfl, rfl, rfl,
    fun r w => ?_⟩
  have ho := windowOffset_regAddr (accept v { s with agenda := rest }) r
  exact step_of_write_busy (s := { accept v { s with agenda := rest } with agenda := [_] }) rfl rfl ho

/-- Settles O9: an offset the window answers is written only while idle. -/
theorem writesIgnoredWhileBusy : Obligations.WritesIgnoredWhileBusy := by
  intro s addr width v rest hb h ho
  obtain ⟨offset, ho⟩ := Option.isSome_iff_exists.1 ho
  exact step_of_write_busy hb h ho

/-- Settles O10: a write of an operand register changes the operands only, and a completed command leaves them alone. -/
theorem operandWriteStored : Obligations.OperandWriteStored := by
  refine ⟨fun s r v rest hi hr h => ?_, fun i s t h r hr => ?_⟩
  · obtain ⟨o, ho, hsame, hother⟩ := writeReg_operand hr v { s with agenda := rest }
    refine ⟨_, (step_of_wr_idle hi h).trans (by rw [ho]), hsame, hother, rfl, rfl, rfl, rfl, rfl, _, step_of_rd rfl, ?_⟩
    refine (readReg_value ?_).1.trans hsame
    simp [not_isCtxReg_of_operand hr]
  · obtain ⟨ho, -⟩ := exec_commandFrame h
    exact regValue_operand_congr ho hr

/-- Settles O11: a write there is ignored at any time, and a read changes nothing that a register shows. -/
theorem reservedAndReadOnlyAccesses : Obligations.ReservedAndReadOnlyAccesses := by
  intro s addr v offset rest ho
  refine ⟨fun h hreg => ?_, fun h => ⟨_, step_of_read h ho, fun hnone => ?_, ?_⟩⟩
  · rw [step_of_write h ho]
    obtain hnone | hstatus | ⟨r, hr, hreg⟩ := hreg
    · rw [writeOffset_reserved hnone]
    · rw [writeOffset_readOnly hstatus (.inl rfl)]
    · rw [writeOffset_readOnly hreg (.inr (mem_ctxRegs.1 hr))]
  · rw [readOffset_reserved hnone]
  · obtain ⟨w, d, u, hread⟩ := readOffset_frame offset { s with agenda := rest }
    rw [hread]
    exact ⟨regValue_congr rfl rfl rfl, rfl, rfl, rfl⟩

/-- Settles O13: BASE is 256-byte aligned, so an address is aligned where its offset is. -/
theorem otherWindowAccessRefused : Obligations.OtherWindowAccessRefused := by
  intro s addr width v rest hbase
  have hiff : (windowOffset s addr width).isSome ↔
      width = 4 ∧ addr.toNat ≤ (windowBase s).toNat + 0xFC ∧ addr.toNat % 4 = 0 := by
    rw [windowOffset_isSome_iff, and_iff_right hbase]
  refine ⟨hiff, fun hno => ?_⟩
  have hnone : windowOffset { s with agenda := rest } addr width = none :=
    Option.not_isSome_iff_eq_none.1 fun hsome => hno (hiff.1 hsome)
  exact ⟨fun h => by simp only [step_of_agenda h, takeTurn, hnone],
    fun h => by simp only [step_of_agenda h, takeTurn, hnone]⟩

/-- Settles O16: the layout of the word for every code, and the code of every result. -/
theorem statusWordFields : Obligations.StatusWordFields := by
  refine ⟨statusWord_fields, fun r => ?_, rfl, rfl, rfl, rfl, rfl, rfl⟩
  cases r <;> decide

/-- Settles O14, by what stands at the offset; the latched word decides whether a context register is drawn. -/
theorem readsWhileBusy : Obligations.ReadsWhileBusy := by
  intro s addr offset rest hb hresult ho h
  refine ⟨_, step_of_read h ho, fun hr => ?_, fun r hop hr => ?_, fun hr => ?_, fun r hctx hr => ?_⟩
  · rw [readOffset_of_regAt hr, (readReg_value (by simp [isCtxReg])).1]
    obtain ⟨hbusy, -, hcode, -⟩ := statusWord_fields s.status
    exact ⟨hbusy.trans hb, hcode.trans (by rw [hresult hb]; rfl)⟩
  · rw [readOffset_of_regAt hr, (readReg_value (by simp [not_isCtxReg_of_operand hop])).1]
    exact regValue_operand_congr rfl hop
  · obtain hr | hr := hr
    · rw [readOffset_of_regAt hr, (readReg_value (by simp [isCtxReg])).1]
      rfl
    · rw [readOffset_reserved hr]
  · have hbusy : contextBusy { s with agenda := rest } = true ↔
        s.cmdlat ∈ [0x00000001#32, 0x00000002#32, 0x00000003#32] := contextBusy_iff.trans (and_iff_right hb)
    rw [readOffset_of_regAt hr]
    split
    · rename_i hcmd
      rw [readReg_free (mem_ctxRegs.1 hctx) (hbusy.2 hcmd)]
      exact ⟨rfl, rfl⟩
    · rename_i hcmd
      rw [(readReg_value fun hc => hcmd (hbusy.1 hc.2)).1]
      exact regValue_congr rfl rfl rfl r

/-- Settles O15: outside a context command in progress a read returns the register. -/
theorem readReturnsRegister : Obligations.ReadReturnsRegister := by
  refine ⟨fun s r rest hno h => ?_, fun s => ?_⟩
  · have hvalue : ¬ (isCtxReg r = true ∧ contextBusy { s with agenda := rest } = true) := fun hc =>
      hno ⟨mem_ctxRegs.2 hc.1, contextBusy_iff.1 hc.2⟩
    obtain ⟨hdata, hdraws⟩ := readReg_value hvalue
    obtain ⟨w, d, u, hread⟩ := readReg_frame r { s with agenda := rest }
    rw [hread] at hdata hdraws
    refine ⟨_, (step_of_rd h).trans (by rw [hread]), hdata.trans ?_, ?_, rfl, rfl, hdraws, rfl⟩
    · exact regValue_congr rfl rfl rfl r
    · exact regValue_congr rfl rfl rfl
  · exact ⟨rfl, rfl, rfl, rfl, rfl, rfl, rfl, rfl, rfl, rfl, rfl, rfl, rfl, rfl, rfl, rfl, count_eq_halves s.ctx⟩

/-- Settles O17: a register is the little-endian word of four bytes of the buffer. -/
theorem ctxBufLittleEndian : Obligations.CtxBufLittleEndian := by
  intro s k j
  rw [regValue, le32_byte]
  simp only [List.getD_eq_getElem?_getD, List.getElem?_take_of_lt j.isLt, List.getElem?_drop]

/-- Settles O18: each address is a high word above a low one. -/
theorem addressFromHalves : Obligations.AddressFromHalves :=
  fun _ => ⟨append_toNat _ _, append_toNat _ _, append_toNat _ _⟩

/-- Settles O21, turn by turn (`takeTurn_commandKept`). -/
theorem commandUndisturbedWhileBusy : Obligations.CommandUndisturbedWhileBusy := by
  intro s t turn rest hb ha hengine hreset h
  rw [step_of_agenda ha] at h
  obtain ⟨hcmdlat, hops, hctx, hstatus, hscratch, hwrites, hreads⟩ :=
    takeTurn_commandKept (s := { s with agenda := rest }) hb hengine hreset h
  exact ⟨hcmdlat, hops, hctx, hstatus, hscratch, hwrites, hreads⟩

/-- Settles O55: a command runs without touching these fields, then completes. -/
theorem completionFrame : Obligations.CompletionFrame := by
  intro i s t h
  refine ⟨exec_commandFrame h, ?_⟩
  obtain ⟨code, u, rfl, hcode, -, -⟩ := exec_next h
  exact ⟨rfl, hcode, rfl⟩

/-- Settles O57: a composite command has no effect on the context, and answers alike under any other. -/
theorem compositeLeavesContext : Obligations.CompositeLeavesContext := by
  intro i s t hi h
  have hframe : t.ctx = s.ctx ∧ t.status.ctxValid = s.status.ctxValid := by
    obtain ⟨code, u, rfl, -, -, he⟩ := exec_next h
    cases he with
    | kept _ _ hc hv => exact ⟨hc, hv⟩
    | _ => simp at hi
  refine ⟨hframe.1, hframe.2, fun c b => ?_⟩
  exact (exec_withContext c b s hi).trans (by rw [h]; rfl)

/-- Settles O60, by the command's effect on the context. -/
theorem ctxValidLifecycle : Obligations.CtxValidLifecycle := by
  intro i s t h
  obtain ⟨code, u, rfl, -, -, he⟩ := exec_next h
  cases he with
  | init _ hv => exact hv
  | update data _ _ hv => exact hv
  | final _ hv => exact hv
  | kept hi hf _ hv =>
    rw [if_neg hi]
    exact hv.trans (if_neg hf).symm

/-- Settles O5: both positions of the engine's turn are `engineTurn`. -/
theorem stepRunsLatchedCommand : Obligations.StepRunsLatchedCommand := by
  intro s i hb hd
  have run : ∀ turns, engineTurn { s with agenda := turns } = exec i { s with agenda := turns } := fun turns => by
    simp only [engineTurn, hb, hd, if_true]
  refine ⟨fun h => ?_, fun rest h => ?_⟩
  · rw [step, nextTurn, h]
    exact run s.agenda
  · rw [step_of_agenda h]
    exact run rest

/-- Settles O6: the placed command is one in progress with the engine's turn next. -/
theorem placedCommandRunsNext : Obligations.PlacedCommandRunsNext := by
  intro s i
  rw [withFetchWord_encode]
  exact (stepRunsLatchedCommand (placeCommand (encode i) s) i rfl (decode_encode i)).2 s.agenda rfl

/-- Settles O12: every row is a register found at its own offset. -/
theorem registerMap : Obligations.RegisterMap :=
  ⟨regAt_regOffset .cmd, regAt_regOffset .status, regAt_regOffset .srcAddrLo, regAt_regOffset .srcAddrHi,
    regAt_regOffset .srcLen, regAt_regOffset .keyAddrLo, regAt_regOffset .keyAddrHi, regAt_regOffset .keyLen,
    regAt_regOffset .dstAddrLo, regAt_regOffset .dstAddrHi, regAt_regOffset .version, regAt_regOffset (.ctxH 0),
    regAt_regOffset (.ctxH 1), regAt_regOffset (.ctxH 2), regAt_regOffset (.ctxH 3), regAt_regOffset (.ctxH 4),
    regAt_regOffset .ctxCountLo, regAt_regOffset .ctxCountHi, fun k => regAt_regOffset (.ctxBuf k), by decide,
    regAt_regOffset⟩

/-- Settles O22, register by register. -/
theorem resetState : Obligations.ResetState := by
  refine ⟨fun r => ?_, rfl, rfl, rfl, rfl, rfl, by decide, rfl, rfl⟩
  cases r with
  | ctxH k => revert k; decide
  | ctxBuf k => revert k; decide
  | _ => decide

/-- Settles O23: nothing is in memory, noted or absorbed after reset. -/
theorem resetMeetsInv : Obligations.ResetMeetsInv :=
  resetEngine_inv (s := State.reset) reset_mem_wf (by simp [State.reset, Sharing.empty])

end Sys2Proof.Machine

/-! ## Memory (20_memory.md)

First one byte of memory and the canonical form, then the engine's accesses and fragment tables, the bytes that race, what a
command leaves in memory, and the turns of other agents; last the obligations these facts settle. -/

namespace Sys2Proof.Machine

/-! ### The canonical form (R50) -/

/-- A canonical memory lists exactly the bytes that do not read as unlisted ones do. -/
theorem mem_iff_read {m : Memory} (hm : m.wf) {a : Nat} {v : Byte} :
    (a, v) ∈ m ↔ m.read a = v ∧ v ≠ Memory.unlisted := by
  induction m with
  | nil => simp [Memory.read, eq_comm]
  | cons c m ih =>
    obtain ⟨b, w⟩ := c
    obtain ⟨hpair, hcells⟩ := hm
    obtain ⟨hb, hpair⟩ := List.pairwise_cons.1 hpair
    obtain ⟨⟨-, hw⟩, hcells⟩ := List.forall_mem_cons.1 hcells
    rw [List.mem_cons, Prod.mk.injEq, ih ⟨hpair, hcells⟩, Memory.read]
    split
    · rename_i hba
      subst hba
      have hrest : Memory.read m b = Memory.unlisted := read_of_lt m b hb
      grind
    · rename_i hba
      grind

/-- Canonical memories that read alike are equal. -/
theorem eq_of_read_eq {m n : Memory} (hm : m.wf) (hn : n.wf) (h : ∀ a, m.read a = n.read a) : m = n := by
  have hasymm : Std.Antisymm fun c d : Host.Cell => c.1 < d.1 := ⟨fun _ _ h h' => absurd h (Nat.lt_asymm h')⟩
  have hirrefl : Std.Irrefl fun c d : Host.Cell => c.1 < d.1 := ⟨fun _ => Nat.lt_irrefl _⟩
  exact hm.1.eq_of_mem_iff hn.1 fun ⟨a, v⟩ => by rw [mem_iff_read hm, mem_iff_read hn, h]

/-! ### Accesses that are refused, and accesses of no byte (R52, R53) -/

theorem checkAccess_of_refused {s : State} {k : AccessKind} {a n : Nat} (h : Refused s k a n) :
    checkAccess s k a n = .error (.fault (.busFault a s.cmdlat)) := by
  obtain ⟨h0, h⟩ := h
  rw [checkAccess, if_neg h0]
  split
  · rfl
  · rename_i hfits
    rw [if_pos (h.resolve_left hfits)]

theorem checkAccess_zero (s : State) (k : AccessKind) (a : Nat) : checkAccess s k a 0 = .ok () :=
  checkAccess_ok_iff.2 (.inl rfl)

/-- The write of an empty string changes nothing. -/
theorem afterWrite_nil (s : State) (a : Nat) : afterWrite s a [] = s := by
  have hstale : markStale s a 0 = s.sharing.stale := by simp [markStale]
  simp only [afterWrite, List.length_nil, hstale]
  rfl

/-- A table whose one access is refused stops `ReadFrags` (R52, R56). -/
theorem readFrags_of_table_error {s : State} {tab count : Nat} {e : Stop}
    (h : checkAccess s .read tab (16 * count) = .error e) : readFrags s tab count = .error e := by
  have hcount : count ≠ 0 := by
    rintro rfl
    rw [Nat.mul_zero, checkAccess_zero] at h
    cases h
  simp only [readFrags, if_neg hcount, memRead_error_iff.2 h]

/-! ### Fragment tables (R55, R56) -/

/-- The fragments of a run of descriptors, each admitted, in table order. -/
theorem readFragments_of_admitted {s : State} {table : List Byte} {m k : Nat}
    (h : ∀ j ∈ List.range' k m, Admitted s .read (fragAddr table j) (fragLen table j)) :
    readFragments s table k m = .ok ((List.range' k m).map fun j =>
      engineBytes s (j + 2) (fragAddr table j) (fragLen table j)) := by
  induction m generalizing k with
  | zero => rfl
  | succ m ih =>
    rw [List.range'_succ] at h ⊢
    obtain ⟨hfirst, hrest⟩ := List.forall_mem_cons.1 h
    simp only [readFragments, memRead_ok_iff.2 ⟨hfirst, rfl⟩, ih hrest, List.map_cons]

/-- `ReadFrags` of an admitted table of admitted fragments. -/
theorem readFrags_of_admitted {s : State} {tab count : Nat} (h : FragsAdmitted s tab count) :
    readFrags s tab count = .ok (fragBytes s tab count) := by
  obtain ⟨htable, hfrags⟩ := h
  by_cases hcount : count = 0
  · subst hcount
    rfl
  · have hread : memRead s 1 tab (16 * count) = .ok (tableBytes s tab count) := memRead_ok_iff.2 ⟨htable, rfl⟩
    have hall := readFragments_of_admitted (k := 0) (m := count) (table := tableBytes s tab count)
      fun j hj => hfrags j (by simpa using hj)
    rw [← List.range_eq_range'] at hall
    simp only [readFrags, if_neg hcount, hread, hall, fragBytes]

/-- Bits above others, as a number. -/
theorem toNat_append_eq {m n : Nat} (x : BitVec m) (y : BitVec n) : (x ++ y).toNat = x.toNat * 2 ^ n + y.toNat := by
  rw [BitVec.toNat_append, ← Nat.shiftLeft_add_eq_or_of_lt y.isLt, Nat.shiftLeft_eq]

/-- A little-endian word, as a number (R11). -/
theorem le32_toNat (l : List Byte) : (le32 l).toNat = (l.getD 0 0).toNat +
    256 * ((l.getD 1 0).toNat + 256 * ((l.getD 2 0).toNat + 256 * (l.getD 3 0).toNat)) := by
  simp only [le32, toNat_append_eq]
  omega

theorem getD_take_drop (l : List Byte) (i : Nat) {j n : Nat} (h : j < n) :
    ((l.drop i).take n).getD j 0 = l.getD (i + j) 0 := by
  simp only [List.getD_eq_getElem?_getD, List.getElem?_take_of_lt h, List.getElem?_drop]

/-- A little-endian 64-bit value, as a number (R11). -/
theorem le64_toNat (l : List Byte) : (le64 l).toNat = (l.getD 0 0).toNat + 256 * ((l.getD 1 0).toNat +
    256 * ((l.getD 2 0).toNat + 256 * ((l.getD 3 0).toNat + 256 * ((l.getD 4 0).toNat + 256 * ((l.getD 5 0).toNat +
    256 * ((l.getD 6 0).toNat + 256 * (l.getD 7 0).toNat)))))) := by
  have hlow : ∀ j < 4, (l.take 4).getD j 0 = l.getD j 0 := fun j hj => by
    simpa using getD_take_drop l 0 hj
  simp (disch := decide) only [le64, append_toNat, le32_toNat, hlow, getD_take_drop, Nat.reduceAdd]
  omega

/-! ### The bytes that race (R62, R66) -/

/-- What makes the byte the engine reads race. -/
theorem readRaces_iff {s : State} {a : Nat} : readRaces s a = true ↔
    a ∈ s.sharing.writes ∨ (inRanges (usedDestinations s) a = true ∧ a ∈ s.sharing.reads) ∨ a ∈ upcoming s ∨
      (s.platform.dmaCoherent = false ∧ a ∈ s.sharing.dirty) := by
  simp only [readRaces, Bool.or_eq_true, Bool.and_eq_true, List.contains_iff_mem, Bool.not_eq_true', or_assoc]

/-- A byte that races reads as a draw of the access. -/
theorem engineByte_of_races {s : State} {a : Nat} (h : readRaces s a = true) (k : Nat) :
    engineByte s k a = Config.freeByte s.draws (.engineRead k) a := by rw [engineByte, if_pos h]

/-- A byte that does not race reads as memory holds it. -/
theorem engineByte_of_not_races {s : State} {a : Nat} (h : ¬ readRaces s a = true) (k : Nat) :
    engineByte s k a = s.mem.read a := by rw [engineByte, if_neg h]

/-- A touched byte of the destination of the command in progress races, read or written. -/
theorem readRaces_of_raced {s : State} {i : Instr} {a : Nat} (hi : decode s.cmdlat = .ok i) (h : Raced i s a) :
    readRaces s a = true := by
  obtain ⟨hdest, ht⟩ := h
  have hused : inRanges (usedDestinations s) a = true := inRanges_usedDestinations.2 (.inl ⟨i, hi, hdest⟩)
  obtain hw | hr := List.mem_append.1 ht
  · exact readRaces_iff.2 (.inl hw)
  · exact readRaces_iff.2 (.inr (.inl ⟨hused, hr⟩))

/-- What makes a byte race, destinations in use named one by one. -/
theorem readRaces_of_breach {s : State} {a : Nat}
    (h : a ∈ s.sharing.writes ∨ (∃ i, decode s.cmdlat = .ok i ∧ Raced i s a) ∨
      (a ∈ s.sharing.reads ∧ inRanges s.sharing.unseen a = true) ∨ a ∈ upcoming s ∨
      (s.platform.dmaCoherent = false ∧ a ∈ s.sharing.dirty)) : readRaces s a = true := by
  obtain hw | ⟨i, hi, hraced⟩ | ⟨hr, hunseen⟩ | hlate := h
  · exact readRaces_iff.2 (.inl hw)
  · exact readRaces_of_raced hi hraced
  · exact readRaces_iff.2 (.inr (.inl ⟨inRanges_usedDestinations.2 (.inr hunseen), hr⟩))
  · exact readRaces_iff.2 (.inr (.inr hlate))

/-- The accesses to come after acceptance depend on the turns to come and the destinations then in use. -/
theorem upcoming_accept_congr {s u : State} (hp : u.platform = s.platform) (ha : u.agenda = s.agenda)
    (ho : u.ops = s.ops) (hu : u.sharing.unseen = s.sharing.unseen) (v : Word) :
    upcoming (accept v u) = upcoming (accept v s) :=
  upcoming_congr hp ha
    (by simp only [usedDestinations, latchedDestination, accept_cmdlat, accept_ops, accept_sharing, ho, hu])

/-- Right after acceptance a byte races only by an access to come, or where the host has not cleaned it. -/
theorem engineByte_accept {s : State} {v : Word} {a : Nat} (hlate : a ∉ upcoming (accept v s))
    (hclean : s.platform.dmaCoherent = true ∨ a ∉ s.sharing.dirty) (k : Nat) :
    engineByte (accept v s) k a = s.mem.read a := by
  refine engineByte_of_not_races (fun hr => ?_) k
  obtain hw | ⟨-, hr⟩ | hu | ⟨hc, hd⟩ := readRaces_iff.1 hr
  · exact absurd hw List.not_mem_nil
  · exact absurd hr List.not_mem_nil
  · exact hlate hu
  · obtain hcoh | hnot := hclean
    · exact absurd (hcoh.symm.trans hc) (by decide)
    · exact hnot hd

/-- While a command is in progress a write of another agent is noted. -/
theorem mem_noteWrites_of_busy {s : State} (hb : s.status.busy = true) {l : List Nat} {a : Nat} (ha : a ∈ l) :
    a ∈ noteWrites s l := by
  rw [noteWrites, if_pos hb]
  exact List.mem_append_left _ ha

theorem mem_noteRead_of_busy {s : State} (hb : s.status.busy = true) (a : Nat) : a ∈ noteRead s a := by
  rw [noteRead, if_pos hb]
  exact List.mem_cons_self

theorem mem_dirtyIn {s : State} {r : Range} {a : Nat} : a ∈ dirtyIn s r ↔ a ∈ s.sharing.dirty ∧ inRange r a = true :=
  List.mem_filter

/-! ### Accesses still to come (R62) -/

/-- A turn with no read of BUSY = 0 before it, and that is none itself, comes while the command is in use. -/
theorem mem_turnsInUse {s : State} {before after : List Turn} {x : Turn} (h : NoIdleRead s before)
    (hx : NoIdleRead s [x]) (busy : Bool) : x ∈ turnsInUse s busy (before ++ x :: after) := by
  have notStatus : ∀ {addr : Addr} {w : Nat} {turns : List Turn}, NoIdleRead s (.read addr w :: turns) →
      accesses s addr w 0x04 = false := fun hread =>
    beq_eq_false_iff_ne.2 ((hread _ List.mem_cons_self).2 _ _ rfl)
  induction before generalizing busy with
  | nil =>
    cases x with
    | poll => exact absurd rfl (hx _ List.mem_cons_self).1
    | read addr w =>
      rw [List.nil_append, turnsInUse, notStatus hx]
      exact List.mem_cons_self
    | _ => exact List.mem_cons_self
  | cons y before ih =>
    have hrest : NoIdleRead s before := fun z hz => h z (List.mem_cons_of_mem _ hz)
    cases y with
    | poll => exact absurd rfl (h _ List.mem_cons_self).1
    | read addr w =>
      rw [List.cons_append, turnsInUse, notStatus h]
      exact List.mem_cons_of_mem _ (ih hrest _)
    | _ => exact List.mem_cons_of_mem _ (ih hrest _)

/-- A store to come before any read of BUSY = 0 is a breach to come. -/
theorem mem_upcoming_of_store {s : State} {before after : List Turn} {cached : Bool} {a : Addr} {v : Byte}
    (h : NoIdleRead s before) (ha : s.agenda = before ++ .store cached a v :: after) : a.toNat ∈ upcoming s := by
  refine List.mem_append_left _ (List.mem_filterMap.2 ⟨.store cached a v, ?_, rfl⟩)
  rw [ha]
  exact mem_turnsInUse h (by simp [NoIdleRead]) false

/-- So is a load there of a destination in use. -/
theorem mem_upcoming_of_load {s : State} {before after : List Turn} {cached : Bool} {a : Addr}
    (h : NoIdleRead s before) (ha : s.agenda = before ++ .load cached a :: after)
    (hused : inRanges (usedDestinations s) a.toNat = true) : a.toNat ∈ upcoming s := by
  refine List.mem_append_right _ (List.mem_filter.2 ⟨List.mem_filterMap.2 ⟨.load cached a, ?_, rfl⟩, hused⟩)
  rw [ha]
  exact mem_turnsInUse h (by simp [NoIdleRead]) false

/-- No breach is to come where a read of BUSY = 0 is next. -/
theorem upcoming_eq_nil {s : State} {after : List Turn} (h : s.agenda = .poll :: after ∨ s.agenda = rd s .status :: after) :
    upcoming s = [] := by
  have hturns : turnsInUse s false s.agenda = [] := by
    obtain h | h := h
    · rw [h, turnsInUse]
    · have hstatus : accesses s (regAddr s .status) 4 0x04 = true := beq_iff_eq.2 (windowOffset_regAddr s .status)
      rw [h, rd, turnsInUse, hstatus]
      rfl
  rw [upcoming, hturns]
  rfl

/-! ### What a command leaves in memory (R59, R62, R74) -/

/-- What a command has done before it completes, memory included: it has changed no byte outside its destination, and drawn
nothing yet. -/
structure Outputs (i : Instr) (s u : State) : Prop extends RunsTo s u where
  draws : u.draws = s.draws
  outside : ∀ a, ¬ InDestination i s a → u.mem.read a = s.mem.read a
  kept : destLength i = 0 → u.mem = s.mem

theorem Outputs.refl (i : Instr) (s : State) : Outputs i s s :=
  { toRunsTo := .refl s, draws := rfl, outside := fun _ _ => rfl, kept := fun _ => rfl }

theorem Outputs.setCtx {i : Instr} {s u : State} (h : Outputs i s u) (c : Ctx) : Outputs i s (setCtx c u) :=
  { h with toRunsTo := h.toRunsTo.setCtx c }

theorem Outputs.setCtxValid {i : Instr} {s u : State} (h : Outputs i s u) (b : Bool) :
    Outputs i s (setCtxValid b u) :=
  { h with toRunsTo := h.toRunsTo.setCtxValid b }

/-- A write of the destination's length at `DST_ADDR` stays inside the destination. -/
theorem Outputs.afterWrite {i : Instr} {s u : State} (h : Outputs i s u) {v : List Byte}
    (hv : v.length = destLength i) (hc : checkAccess s .write s.ops.dstAddr (destLength i) = .ok ()) :
    Outputs i s (afterWrite u s.ops.dstAddr v) := by
  have hcheck : checkAccess u .write s.ops.dstAddr v.length = .ok () := by
    rw [hv, checkAccess_ok_iff, h.platform]
    exact checkAccess_ok_iff.1 hc
  refine { toRunsTo := h.toRunsTo.afterWrite hcheck, draws := h.draws, outside := fun a ha => ?_, kept := fun h0 => ?_ }
  · rw [afterWrite_read_outside (by rwa [hv]), h.outside a ha]
  · rw [List.eq_nil_of_length_eq_zero (hv.trans h0), afterWrite_nil, h.kept h0]

/-- What a command that answers a next state has left in memory when it completes. -/
theorem exec_outputs {i : Instr} {s t : State} (h : exec i s = .next t) :
    ∃ code u, t = complete i code u ∧ Outputs i s u := by
  have start := Outputs.refl i s
  cases i with
  | sha1Init =>
    cases h
    exact ⟨.ok, _, rfl, (start.setCtx _).setCtxValid _⟩
  | sha1Update =>
    obtain ⟨-, -, rfl⟩ | ⟨-, rfl⟩ := execSha1Update_next h
    · exact ⟨.ok, _, rfl, start.setCtx _⟩
    · exact ⟨.errSequence, _, rfl, start⟩
  | sha1Final =>
    obtain ⟨-, hc, rfl⟩ | ⟨-, rfl⟩ := execSha1Final_next h
    · exact ⟨.ok, _, rfl, ((start.setCtx _).setCtxValid _).afterWrite (finish_length _) hc⟩
    · exact ⟨.errSequence, _, rfl, start⟩
  | sha1Vector =>
    obtain ⟨frags, -, hc, rfl⟩ := execSha1Vector_next h
    exact ⟨.ok, _, rfl, start.afterWrite (sha1_length _) hc⟩
  | hmacVector =>
    obtain ⟨-, rfl⟩ | ⟨-, -, frags, -, hc, rfl⟩ := execHmacVector_next h
    · exact ⟨.errFragCount, _, rfl, start⟩
    · exact ⟨.ok, _, rfl, start.afterWrite (hmacFn_length _ _) hc⟩
  | hmac =>
    obtain ⟨-, -, hc, rfl⟩ := execHmac_next h
    exact ⟨.ok, _, rfl, start.afterWrite (hmacFn_length _ _) hc⟩
  | eapolMic =>
    obtain ⟨hc, hcases⟩ := execEapolMic_next rfl h
    have zeroed := start.afterWrite (zeros_length 16) hc
    obtain ⟨-, -, -, rfl⟩ | ⟨-, rfl⟩ := hcases
    · exact ⟨.ok, _, rfl, zeroed.afterWrite (micOf_length _ _) hc⟩
    · exact ⟨.errVersion, _, rfl, zeroed⟩

/-- The destination of a completed command is in use (R62). -/
theorem exec_destination_unseen {i : Instr} {s t : State} {a : Nat} (h : exec i s = .next t)
    (ha : InDestination i s a) : inRanges t.sharing.unseen a = true := by
  obtain ⟨code, u, rfl, hu⟩ := exec_outputs h
  have hdest : inRanges (destination i u.ops) a = true := inRanges_destination.2 (by rwa [hu.ops])
  simp only [complete_sharing, inRanges, List.any_append, Bool.or_eq_true]
  exact .inl hdest

/-- A raced byte of the destination holds a draw when the command has completed (R62). -/
theorem exec_read_raced {i : Instr} {s t : State} {a : Nat} (hm : s.mem.wf) (h : exec i s = .next t)
    (ha : Raced i s a) : t.mem.read a = Config.freeByte s.draws .engineWrite a := by
  obtain ⟨hdest, ht⟩ := ha
  obtain ⟨code, u, rfl, hu⟩ := exec_outputs h
  rw [complete_mem, raceDestinations_read_raced (hu.mem_wf hm) (inRanges_destination.2 (by rwa [hu.ops]))
    (by rwa [hu.touched]), hu.draws]

/-- A byte outside the destination is as before when the command has completed (R59). -/
theorem exec_read_outside {i : Instr} {s t : State} {a : Nat} (h : exec i s = .next t)
    (ha : ¬ InDestination i s a) : t.mem.read a = s.mem.read a := by
  obtain ⟨code, u, rfl, hu⟩ := exec_outputs h
  have hdest : ¬ inRanges (destination i u.ops) a = true := fun hd => ha (by rwa [inRanges_destination, hu.ops] at hd)
  rw [complete_mem, raceDestinations_read_other fun hd => hdest hd.1, hu.outside a ha]

/-- A command without a destination leaves memory as it is (R74). -/
theorem exec_mem_of_no_destination {i : Instr} {s t : State} (h : exec i s = .next t) (h0 : destLength i = 0) :
    t.mem = s.mem := by
  obtain ⟨code, u, rfl, hu⟩ := exec_outputs h
  rw [complete_mem, destination, if_pos h0, raceDestinations_nil, hu.kept h0]

/-! ### The turns of other agents (R60 to R62, R66) -/

/-- The bytes of memory after another agent's store. -/
theorem agentStore_read {s : State} (hm : s.mem.wf) (cached : Bool) (a : Nat) (v : Byte) (b : Nat) :
    (agentStore cached a v s).mem.read b = if a = b then
      (if inRanges s.sharing.unseen a then Config.freeByte s.draws .racedDestination a else v) else s.mem.read b :=
  read_write _ hm.1 _ _ _

/-- Without coherence the caches hold a store through them, and are stale after one past them (R66). -/
theorem agentStore_cacheNote {s : State} (hc : s.platform.dmaCoherent = false) (cached : Bool) (a : Nat) (v : Byte) :
    a ∈ if cached then (agentStore cached a v s).sharing.dirty else (agentStore cached a v s).sharing.stale := by
  cases cached <;> simp [agentStore, markStale, hc]

/-- A byte that waits to be cleaned after a store of it was stored through the caches, or waited before. -/
theorem not_stale_of_dirty_agentStore {s : State} {cached : Bool} {a : Nat} {v : Byte}
    (h : (cached = true ∧ s.platform.dmaCoherent = false) ∨ a ∉ s.sharing.dirty)
    (hd : a ∈ (agentStore cached a v s).sharing.dirty) : a ∉ (agentStore cached a v s).sharing.stale := by
  by_cases hheld : (cached && !s.platform.dmaCoherent) = true
  · simp [agentStore, hheld]
  · have hdirty : a ∈ s.sharing.dirty := by simpa [agentStore, hheld] using hd
    have hno : ¬ (cached = true ∧ s.platform.dmaCoherent = false) := by simpa using hheld
    exact absurd hdirty (h.resolve_left hno)

/-- A destination in use is one of those a load races with (R62). -/
theorem inRanges_destinationsInUse {s : State} {a : Nat} (h : DestinationInUse s a) :
    inRanges (destinationsInUse s) a = true := by
  unfold destinationsInUse
  obtain ⟨hb, hdest⟩ | hunseen := h
  · rw [if_pos hb]
    exact inRanges_usedDestinations.2 (.inl hdest)
  · split
    · exact inRanges_usedDestinations.2 (.inr hunseen)
    · exact hunseen

/-- A load of a destination in use, or through stale caches, returns a draw (R62, R66). -/
theorem agentLoad_free {s : State} {cached : Bool} {a : Nat}
    (h : DestinationInUse s a ∨ (cached = true ∧ s.platform.dmaCoherent = false ∧ a ∈ s.sharing.stale)) :
    (agentLoad cached a s).readData = (Config.freeByte s.draws .agentLoad a).setWidth 32 ∧
      (agentLoad cached a s).draws = s.draws + 1 := by
  have hfree : (inRanges (destinationsInUse s) a ||
      (cached && !s.platform.dmaCoherent && s.sharing.stale.contains a)) = true := by
    obtain h | ⟨hc, hd, hs⟩ := h
    · rw [inRanges_destinationsInUse h, Bool.true_or]
    · simp [hc, hd, hs]
  simp only [agentLoad, hfree, if_true, and_self]

/-- A load of a completed destination in use leaves a draw there (R62). -/
theorem agentLoad_read_raced {s : State} (hm : s.mem.wf) (cached : Bool) {a : Nat}
    (h : inRanges s.sharing.unseen a = true) :
    (agentLoad cached a s).mem.read a = Config.freeByte s.draws .racedDestination a := by
  simp only [agentLoad, h, if_true, read_write _ hm.1]

/-- A clean of a byte that is not stale, with no destination in use, leaves it alone in memory (R66). -/
theorem cacheClean_read {s : State} {r : Range} {a : Nat} (hs : a ∈ s.sharing.dirty → a ∉ s.sharing.stale)
    (hu : s.sharing.unseen = []) : (cacheClean r s).mem.read a = s.mem.read a := by
  refine drawEach_read_other _ _ _ fun hmem => ?_
  obtain ⟨hd, hfree⟩ := List.mem_filter.1 hmem
  have hstale : a ∉ s.sharing.stale := hs (mem_dirtyIn.1 hd).1
  simp [hstale, hu, inRanges] at hfree

/-- A byte of the range of a clean no longer waits in the caches. -/
theorem not_dirty_cacheClean {s : State} {r : Range} {a : Nat} (ha : inRange r a = true) :
    a ∉ (cacheClean r s).sharing.dirty := fun hd => by
  simpa [ha] using (List.mem_filter.1 hd).2

/-- One step, then the rest of a run. -/
theorem core_run_succ {s t : State} (h : step s = .next t) (k : Nat) : core.run (k + 1) s = core.run k t := by
  have hstep : core.step s = .next t := h
  simp only [Host.Core.run, hstep]

/-! ### The obligations -/

/-- Settles O26: a write is read back where it was stored and nowhere else, and what a canonical memory lists is what it
reads. -/
theorem memoryWriteAndForm : Obligations.MemoryWriteAndForm := by
  refine ⟨fun m a v hm => ⟨?_, fun b hb => ?_, fun ha => write_wf hm ha v⟩, fun m n hm hn h => eq_of_read_eq hm hn h⟩
  · rw [read_write m hm.1, if_pos rfl]
  · rw [read_write m hm.1, if_neg (Ne.symm hb)]

/-- Settles O27: every access is checked before it is made, and a table as one access. -/
theorem refusedAccessFaults : Obligations.RefusedAccessFaults := by
  intro s slot addr n v
  refine ⟨fun h => memRead_error_iff.2 (checkAccess_of_refused h), fun hv h => ?_,
    fun h => readFrags_of_table_error (checkAccess_of_refused h)⟩
  subst hv
  exact memWrite_error_iff.2 (checkAccess_of_refused h)

/-- Settles O28: an access of no byte passes its check and has no effect. -/
theorem zeroLengthUnchecked : Obligations.ZeroLengthUnchecked := fun s _ addr =>
  ⟨memRead_ok_iff.2 ⟨checkAccess_zero s .read addr, rfl⟩, s,
    memWrite_ok_iff.2 ⟨checkAccess_zero s .write addr, (afterWrite_nil s addr).symm⟩, rfl⟩

/-- Settles O30: the fragments by induction on the descriptors, and the layout by the bytes of little-endian words. -/
theorem readFragsInOrder : Obligations.ReadFragsInOrder := by
  refine ⟨fun s tab count h => readFrags_of_admitted h, fun table k b hb => ?_⟩
  simp (disch := decide) only [hb, fragAddr, fragLen, le64_toNat, le32_toNat, getD_take_drop, Nat.add_assoc,
    Nat.reduceAdd, and_self]

/-- Settles O56: a command writes at its destination only, and completes there. -/
theorem memoryFrame : Obligations.MemoryFrame := fun _ _ _ h =>
  ⟨fun _ ha => exec_read_outside h ha, exec_mem_of_no_destination h⟩

/-- Settles O31: the store is in memory when the command is accepted, and neither noted nor waiting in the caches then. -/
theorem storeBeforeAcceptanceSeen : Obligations.StoreBeforeAcceptanceSeen := by
  intro s addr b rest v slot hinv hidle hunseen hlate
  obtain ⟨hm, -⟩ := hinv
  have stored : ∀ (cached : Bool) (a : Nat), (agentStore cached addr.toNat b { s with agenda := rest }).mem.read a =
      if addr.toNat = a then b else s.mem.read a := fun cached a => by
    rw [agentStore_read (s := { s with agenda := rest }) hm]
    simp [hunseen, inRanges]
  have quiet : ∀ {u : State}, u.platform = s.platform → u.agenda = rest → u.ops = s.ops →
      u.sharing.unseen = s.sharing.unseen → addr.toNat ∉ upcoming (accept v u) := fun hp ha ho hu => by
    rwa [upcoming_accept_congr (s := { s with agenda := rest }) hp ha ho hu]
  refine ⟨fun cached h hseen => ⟨_, step_of_agenda h, ?_, fun a ha => ?_⟩, fun cached r h hr hseen => ?_⟩
  · rw [engineByte_accept, stored, if_pos rfl]
    · exact quiet rfl rfl rfl rfl
    · refine hseen.imp id fun ⟨hc, hd⟩ => ?_
      subst hc
      exact hd
  · rw [stored, if_neg (Ne.symm ha)]
  · have hclean : step (agentStore cached addr.toNat b { s with agenda := .clean r :: rest }) =
        .next (cacheClean r (agentStore cached addr.toNat b { s with agenda := rest })) :=
      step_of_agenda (s := agentStore cached addr.toNat b { s with agenda := .clean r :: rest }) rfl
    refine ⟨_, (core_run_succ (step_of_agenda h) 1).trans (core_run_succ hclean 0), ?_⟩
    rw [engineByte_accept, cacheClean_read, stored, if_pos rfl]
    · exact not_stale_of_dirty_agentStore (s := { s with agenda := rest }) hseen
    · exact hunseen
    · exact quiet rfl rfl rfl rfl
    · exact .inr (not_dirty_cacheClean hr)

/-- Settles O29, clause by clause: what the engine reads, what a command leaves, what another agent's store and load do, what
acceptance forgets, and which turns are breaches to come. -/
theorem engineBytesAndRaces : Obligations.EngineBytesAndRaces := by
  refine ⟨fun s slot => ⟨fun addr n hquiet hok => ?_, fun a h => engineByte_of_races (readRaces_of_breach h) slot,
      fun r a hb hd hr => ?_⟩,
    fun i s t a h => ⟨exec_destination_unseen h, fun ⟨hm, _⟩ ha => exec_read_raced hm h ha⟩,
    fun s cached a v rest => ⟨fun h => ?_, fun h => ?_⟩, fun s w rest hidle h => ?_,
    fun s before after cached a v hbefore => ⟨mem_upcoming_of_store hbefore, fun h hdest => ?_, upcoming_eq_nil⟩⟩
  · obtain ⟨hw, hr, hu, hd⟩ := hquiet
    exact memRead_ok_iff.2 ⟨hok, by simp only [engineBytes, engineByte_quiet hw hr hu hd]⟩
  · have hnoted : a ∈ noteWrites s (dirtyIn s r) := mem_noteWrites_of_busy hb (mem_dirtyIn.2 ⟨hd, hr⟩)
    exact ⟨engineByte_of_races (s := cacheClean r s) (readRaces_iff.2 (.inl hnoted)) slot,
      engineByte_of_races (s := cacheInvalidate r s) (readRaces_iff.2 (.inl hnoted)) slot⟩
  · refine ⟨_, step_of_agenda h, fun hb => ?_, fun hc => ?_, fun ⟨hm, _⟩ hunseen => ?_⟩
    · exact mem_noteWrites_of_busy (s := { s with agenda := rest }) hb List.mem_cons_self
    · exact agentStore_cacheNote (s := { s with agenda := rest }) hc cached a.toNat v
    · rw [agentStore_read (s := { s with agenda := rest }) hm, if_pos rfl, if_pos hunseen]
  · refine ⟨_, step_of_agenda h, fun hb => ?_, fun hfree => ?_, fun ⟨hm, _⟩ hunseen => ?_⟩
    · exact mem_noteRead_of_busy (s := { s with agenda := rest }) hb a.toNat
    · exact agentLoad_free (s := { s with agenda := rest }) hfree
    · exact agentLoad_read_raced (s := { s with agenda := rest }) hm cached hunseen
  · exact ⟨_, step_of_wr_idle hidle h, rfl, rfl, rfl⟩
  · exact mem_upcoming_of_load hbefore h (inRanges_usedDestinations.2 hdest)

end Sys2Proof.Machine

/-! ## Command words and polling (30_encoding.md)

First which words are illegal, then what a poll leaves when the engine completes in its turn, and what another agent loads
after it; last the obligations these facts settle. -/

namespace Sys2Proof.Machine

/-! ### Illegal words (R72, R73, R76) -/

/-- The opcodes that select no command. -/
theorem decodeOpcode_error_iff {op : BitVec 8} {e : DecodeError} :
    decodeOpcode op = .error e ↔ e = .illegalOpcode ∧ (op.toNat = 0 ∨ 8 ≤ op.toNat) := by
  unfold decodeOpcode
  split
  case h_8 h1 h2 h3 h4 h5 h6 h7 =>
    have hrange : op.toNat = 0 ∨ 8 ≤ op.toNat := by
      simp only [imp_false] at h1 h2 h3 h4 h5 h6 h7
      omega
    rw [and_iff_left hrange, Except.error.injEq, eq_comm]
  all_goals
    rename_i hop
    simp [hop]

theorem decode_reservedBits_iff {v : Word} : decode v = .error .reservedBits ↔ rsvField v ≠ 0 := by
  unfold decode
  split
  · rename_i hr
    simp [hr, decodeOpcode_error_iff]
  · rename_i hr
    exact iff_of_true rfl hr

theorem decode_illegalOpcode_iff {v : Word} :
    decode v = .error .illegalOpcode ↔ rsvField v = 0 ∧ ((opcodeField v).toNat = 0 ∨ 8 ≤ (opcodeField v).toNat) := by
  unfold decode
  split
  · rename_i hr
    rw [decodeOpcode_error_iff, and_iff_right rfl, and_iff_right hr]
  · rename_i hr
    exact iff_of_false (by simp) fun h => hr h.1

/-- A word with a reserved bit set, or whose opcode selects no command, is rejected under one of the two names. -/
theorem decode_illegal {v : Word}
    (h : rsvField v ≠ 0 ∨ (opcodeField v).toNat = 0 ∨ 8 ≤ (opcodeField v).toNat) : ∃ e, decode v = .error e := by
  by_cases hr : rsvField v = 0
  · exact ⟨_, decode_illegalOpcode_iff.2 ⟨hr, h.resolve_left (absurd hr)⟩⟩
  · exact ⟨_, decode_reservedBits_iff.2 hr⟩

/-- The engine's turn on a legal word in progress (R41). -/
theorem engineTurn_of_legal {s : State} {i : Instr} (hb : s.status.busy = true) (hi : decode s.cmdlat = .ok i) :
    engineTurn s = exec i s := by
  simp only [engineTurn, hb, hi, if_true]

/-- The engine's turn on an illegal word in progress (R204). -/
theorem engineTurn_of_illegal {s : State} (hb : s.status.busy = true) (hi : ∃ e, decode s.cmdlat = .error e) :
    engineTurn s = .next (completeIllegal s) := by
  obtain ⟨e, hi⟩ := hi
  simp only [engineTurn, hb, hi, if_true]

theorem completeIllegal_completed (s : State) : CompletedIllegal s (completeIllegal s) :=
  ⟨⟨rfl, rfl, rfl⟩, rfl, completeIllegal_mem s, rfl, rfl, rfl, rfl, rfl, rfl⟩

/-! ### A poll (R78, R243) -/

/-- A read of STATUS while a command is in progress returns it. -/
theorem readReg_status_busy {s : State} (hb : s.status.busy = true) :
    readReg .status s = { s with readData := s.status.word } := by
  simp [readReg, isCtxReg, observeStatus, hb, regValue]

/-- A read of STATUS while idle also puts every completed destination out of use (R62). -/
theorem readReg_status_idle {s : State} (hi : s.status.busy = false) :
    readReg .status s = { s with readData := s.status.word, sharing := { s.sharing with unseen := [] } } := by
  simp [readReg, isCtxReg, observeStatus, hi, regValue]

/-- A poll that finds a command in progress leaves the engine a turn and comes again. -/
theorem step_of_poll_busy {s : State} {rest : List Turn} (hb : s.status.busy = true) (h : s.agenda = .poll :: rest) :
    step s = .next { s with agenda := .engine :: .poll :: rest, readData := s.status.word } := by
  have hread := readReg_status_busy (s := { s with agenda := rest }) hb
  rw [step_of_agenda h, takeTurn, pollTurn, if_pos hb, hread]

/-- A state of the idle engine after a poll, with the turns that follow it: the host has read STATUS, and no destination is in
use (R62). -/
def polled (s : State) (rest : List Turn) : State :=
  { s with agenda := rest, readData := s.status.word, sharing := { s.sharing with unseen := [] } }

/-- A poll that finds the engine idle ends. -/
theorem step_of_poll_idle {s : State} {rest : List Turn} (hi : s.status.busy = false) (h : s.agenda = .poll :: rest) :
    step s = .next (polled s rest) := by
  have hread := readReg_status_idle (s := { s with agenda := rest }) hi
  rw [step_of_agenda h, takeTurn, pollTurn, if_neg (by simp [hi]), hread]
  rfl

/-- When the engine completes in the turn a poll leaves it, the poll ends with its next read: three steps. -/
theorem run_poll {s t : State} {rest : List Turn} (hb : s.status.busy = true) (h : s.agenda = .poll :: rest)
    (hturn : engineTurn { s with agenda := .poll :: rest, readData := s.status.word } = .next t)
    (hi : t.status.busy = false) (ht : t.agenda = .poll :: rest) :
    core.run 3 s = .next (polled t rest) := by
  have hengine : step { s with agenda := .engine :: .poll :: rest, readData := s.status.word } = .next t :=
    (step_of_agenda (s := { s with agenda := .engine :: .poll :: rest, readData := s.status.word }) rfl).trans hturn
  rw [core_run_succ (step_of_poll_busy hb h), core_run_succ hengine, core_run_succ (step_of_poll_idle hi ht)]
  rfl

/-! ### Loads while no destination is in use (R61, R66) -/

theorem step_of_load {s : State} {cached : Bool} {a : Addr} {rest : List Turn} (h : s.agenda = .load cached a :: rest) :
    step s = .next (agentLoad cached a.toNat { s with agenda := rest }) :=
  step_of_agenda h

/-- While idle, with every completion read, a load returns the byte of memory, unless it goes through stale caches. -/
theorem agentLoad_of_unused {s : State} {cached : Bool} {a : Nat} (hi : s.status.busy = false)
    (hu : s.sharing.unseen = [])
    (hseen : cached = false ∨ s.platform.dmaCoherent = true ∨ a ∉ s.sharing.stale) :
    (agentLoad cached a s).readData = (s.mem.read a).setWidth 32 ∧ (agentLoad cached a s).mem = s.mem := by
  have hfresh : (cached && !s.platform.dmaCoherent && s.sharing.stale.contains a) = false := by
    obtain hc | hc | hc := hseen <;> simp [hc]
  have hunused : inRanges (destinationsInUse s) a = false := by simp [destinationsInUse, hi, hu, inRanges]
  have hunraced : inRanges s.sharing.unseen a = false := by simp [hu, inRanges]
  simp only [agentLoad, hfresh, hunused, hunraced, Bool.or_self, Bool.false_eq_true, if_false, and_self]

/-- An invalidation leaves a byte alone of which the host holds no store. -/
theorem cacheInvalidate_read {s : State} {r : Range} {a : Nat} (h : a ∉ s.sharing.dirty) :
    (cacheInvalidate r s).mem.read a = s.mem.read a :=
  drawEach_read_other _ _ _ fun hmem => h (mem_dirtyIn.1 (List.mem_filter.1 hmem).1).1

/-- After an invalidation while no destination is in use, the caches hold no other byte in its range. -/
theorem not_stale_cacheInvalidate {s : State} {r : Range} {a : Nat} (hi : s.status.busy = false)
    (hu : s.sharing.unseen = []) (ha : inRange r a = true) : a ∉ (cacheInvalidate r s).sharing.stale := fun hs => by
  have hkept := (List.mem_filter.1 hs).2
  simp [ha, destinationsInUse, hi, hu, inRanges] at hkept

/-- So a load through the caches after it returns the byte of memory. -/
theorem run_invalidate_load {s : State} {r : Range} {a : Addr} {more : List Turn}
    (h : s.agenda = .invalidate r :: .load true a :: more) (hi : s.status.busy = false) (hu : s.sharing.unseen = [])
    (hr : inRange r a.toNat = true) (hd : a.toNat ∉ s.sharing.dirty) :
    ∃ w, core.run 2 s = .next w ∧ w.readData = (s.mem.read a.toNat).setWidth 32 ∧
      w.mem.read a.toNat = s.mem.read a.toNat := by
  have hload : step (cacheInvalidate r { s with agenda := .load true a :: more }) =
      .next (agentLoad true a.toNat (cacheInvalidate r { s with agenda := more })) :=
    step_of_load rfl
  obtain ⟨hdata, hmem⟩ := agentLoad_of_unused (s := cacheInvalidate r { s with agenda := more }) (cached := true) hi hu
    (.inr (.inr (not_stale_cacheInvalidate (s := { s with agenda := more }) hi hu hr)))
  rw [cacheInvalidate_read (s := { s with agenda := more }) hd] at hdata
  refine ⟨_, (core_run_succ (step_of_agenda h) 1).trans (core_run_succ hload 0), hdata, ?_⟩
  rw [hmem, cacheInvalidate_read (s := { s with agenda := more }) hd]

/-! ### The bytes a command has written are stale (R66) -/

theorem stale_afterWrite {s : State} {a b : Nat} {v : List Byte} (hc : s.platform.dmaCoherent = false)
    (h : a ≤ b ∧ b < a + v.length) : b ∈ (afterWrite s a v).sharing.stale := by
  simp only [afterWrite_sharing, markStale, hc, Bool.false_eq_true, if_false]
  exact List.mem_append_left _ (List.mem_map.2 ⟨b - a, List.mem_range.2 (by omega), by omega⟩)

/-- Without coherence the caches may hold another byte wherever a command has written: at the destination of one that ends
with OK, and of EAPOL_MIC always (R171). -/
theorem exec_destination_stale {i : Instr} {s t : State} {a : Nat} (h : exec i s = .next t)
    (hc : s.platform.dmaCoherent = false) (ha : InDestination i s a) (hwrites : t.status.result = .ok ∨ i = .eapolMic) :
    a ∈ t.sharing.stale := by
  have written : ∀ {u : State} {v : List Byte}, u.platform = s.platform → v.length = destLength i →
      a ∈ (afterWrite u s.ops.dstAddr v).sharing.stale := fun hp hv =>
    stale_afterWrite (by rw [hp, hc]) (by rwa [hv])
  cases i with
  | sha1Init | sha1Update =>
    obtain ⟨hlow, hhigh⟩ := ha
    exact absurd hhigh (Nat.not_lt.2 hlow)
  | sha1Final =>
    obtain ⟨-, -, rfl⟩ | ⟨-, rfl⟩ := execSha1Final_next h
    · exact written rfl (finish_length _)
    · simp at hwrites
  | sha1Vector =>
    obtain ⟨frags, -, -, rfl⟩ := execSha1Vector_next h
    exact written rfl (sha1_length _)
  | hmacVector =>
    obtain ⟨-, rfl⟩ | ⟨-, -, frags, -, -, rfl⟩ := execHmacVector_next h
    · simp at hwrites
    · exact written rfl (hmacFn_length _ _)
  | hmac =>
    obtain ⟨-, -, -, rfl⟩ := execHmac_next h
    exact written rfl (hmacFn_length _ _)
  | eapolMic =>
    obtain ⟨-, ⟨-, -, -, rfl⟩ | ⟨-, rfl⟩⟩ := execEapolMic_next rfl h
    · exact written rfl (micOf_length _ _)
    · exact written rfl (zeros_length 16)

/-- No command changes which stores the host's caches hold. -/
theorem exec_dirty {i : Instr} {s t : State} (h : exec i s = .next t) : t.sharing.dirty = s.sharing.dirty := by
  obtain ⟨code, u, rfl, -, hu, -⟩ := exec_next h
  exact hu.dirty

/-! ### The obligations -/

/-- Settles O1: only a command's own word selects it. -/
theorem decodeMatchesFullWord : Obligations.DecodeMatchesFullWord :=
  ⟨fun _ _ => decode_eq_ok_iff, rfl, rfl, rfl, rfl, rfl, rfl, rfl⟩

/-- Settles O2: the reserved field is looked at first, then the opcode. -/
theorem illegalWordsExactly : Obligations.IllegalWordsExactly := fun _ =>
  ⟨decode_reservedBits_iff, decode_illegalOpcode_iff⟩

/-- Settles O3: seven words are those of the commands, and three are illegal by their fields. -/
theorem opcodeMapWords : Obligations.OpcodeMapWords :=
  ⟨decode_encode .sha1Init, decode_encode .sha1Update, decode_encode .sha1Final, decode_encode .sha1Vector,
    decode_encode .hmacVector, decode_encode .hmac, decode_encode .eapolMic, decode_illegalOpcode_iff.2 (by decide),
    decode_illegalOpcode_iff.2 (by decide), decode_reservedBits_iff.2 (by decide)⟩

/-- Settles O4: the engine's turn completes the word, whether it comes by itself, from the agenda or from a poll. -/
theorem illegalWordCompletes : Obligations.IllegalWordCompletes := by
  intro s rest hb hword
  have turn : ∀ (turns : List Turn) (d : Word), engineTurn { s with agenda := turns, readData := d } =
      .next (completeIllegal { s with agenda := turns, readData := d }) := fun _ _ =>
    engineTurn_of_illegal hb (decode_illegal hword)
  refine ⟨fun h => ⟨_, ?_, completeIllegal_completed s⟩, fun h => ⟨_, ?_, completeIllegal_completed _⟩,
    fun h => ⟨_, run_poll hb h (turn _ _) rfl rfl, rfl, ?_⟩⟩
  · rw [step, nextTurn, h]
    exact turn s.agenda s.readData
  · rw [step_of_agenda h]
    exact turn rest s.readData
  · obtain ⟨hdone, hvalid, hmem, hctx, hops, hcmdlat, hplatform, -, -⟩ := completeIllegal_completed
      { s with agenda := .poll :: rest, readData := s.status.word }
    exact ⟨hdone, hvalid, hmem, hctx, hops, hcmdlat, hplatform, rfl, rfl⟩

/-- Settles O20: the poll's last read puts the destination out of use, so that only stale caches hide what the command left
from a load. -/
theorem pollEndsAfterCompletion : Obligations.PollEndsAfterCompletion := by
  intro s i rest t hb hi h hexec
  obtain ⟨hops, -, hplatform, hagenda, -⟩ := exec_commandFrame hexec
  have hidle : t.status.busy = false := by
    obtain ⟨code, u, rfl, -⟩ := exec_next hexec
    rfl
  have hturn := (engineTurn_of_legal (s := { s with agenda := .poll :: rest, readData := s.status.word }) hb hi).trans hexec
  have hcoherent : t.platform.dmaCoherent = s.platform.dmaCoherent := congrArg Platform.dmaCoherent hplatform
  refine ⟨_, run_poll hb h hturn hidle hagenda, rfl, hidle, rfl, rfl, rfl, rfl, hops, fun a more =>
    ⟨fun cached hload hseen => ?_, fun hload hc hdest hwrites => ?_, fun r hload hr hclean => ?_⟩⟩
  · exact ⟨_, step_of_load (s := polled t rest) hload,
      agentLoad_of_unused (s := { polled t rest with agenda := more }) hidle rfl
        (hseen.imp_right fun hc => .inl (hcoherent.trans hc))⟩
  · have hstale := exec_destination_stale hexec hc hdest hwrites
    obtain ⟨hdata, -⟩ := agentLoad_free (s := { polled t rest with agenda := more }) (cached := true)
      (.inr ⟨rfl, hcoherent.trans hc, hstale⟩)
    exact ⟨_, step_of_load (s := polled t rest) hload, hdata⟩
  · have hdirty : a.toNat ∉ t.sharing.dirty := by
      rw [exec_dirty hexec]
      exact hclean
    exact run_invalidate_load (s := polled t rest) hload hidle rfl hr hdirty

end Sys2Proof.Machine

/-! ## The SHA-1 core (40_sha1_core.md)

First the count and the buffer after an update, then the contexts no later hash can tell apart, which are equal under every
split of the data, then what padding comes to; after them the bytes of a digest and the rounds of a compression; last the
obligations these facts settle. -/

namespace Sys2Proof.Machine

/-! ### The count, the state words and the buffer after an update (R110, R111) -/

/-- A splice puts its bytes where they belong and leaves the others. -/
theorem splice_getD (b : Vector Byte 64) {j : Nat} {d : List Byte} (h : j + d.length ≤ 64) (p : Nat) :
    (splice b j d).toList.getD p 0 = if j ≤ p ∧ p < j + d.length then d.getD (p - j) 0 else b.toList.getD p 0 := by
  have htake : (b.toList.take j).length = j := by
    rw [List.length_take, Vector.length_toList]
    omega
  rw [splice_toList b h, List.append_assoc]
  rcases lt_or_ge p j with hp | hp
  · rw [if_neg (by omega), List.getD_append _ _ _ _ (by omega)]
    simp only [List.getD_eq_getElem?_getD, List.getElem?_take_of_lt hp]
  rw [List.getD_append_right _ _ _ _ (by omega), htake]
  rcases lt_or_ge p (j + d.length) with hd | hd
  · rw [if_pos ⟨hp, hd⟩, List.getD_append _ _ _ _ (by omega)]
  · rw [if_neg (by omega), List.getD_append_right _ _ _ _ (by omega)]
    simp only [List.getD_eq_getElem?_getD, List.getElem?_drop]
    congr 2
    omega

theorem addCount_zero (x : BitVec 64) : addCount x 0 = x := by simp [addCount]

/-- Two updates count as many bits as one of both strings. -/
theorem addCount_addCount (x : BitVec 64) (m n : Nat) : addCount (addCount x m) n = addCount x (m + n) := by
  rw [addCount, addCount, addCount, Nat.mul_add, BitVec.ofNat_add, BitVec.add_assoc]

/-- Data that does not fill the block runs no compression and is copied into the buffer. -/
theorem absorb_of_short {c : Ctx} {d : List Byte} (h : c.fill + d.length ≤ 63) :
    absorb c d = ⟨c.h, addCount c.count d.length, splice c.buf c.fill d⟩ := by
  rw [absorb, if_neg (by omega)]

/-- Data that fills the block: the first window is compressed, then each whole window of the rest; the bytes left over go
to the front of the first window in the buffer. -/
theorem absorb_of_long {c : Ctx} {d : List Byte} (h : 63 < c.fill + d.length) :
    absorb c d = ⟨compressWindows ((d.length - (64 - c.fill)) / 64) (compress c.h (pending c ++ d.take (64 - c.fill)))
        (d.drop (64 - c.fill)),
      addCount c.count d.length,
      splice (splice c.buf c.fill (d.take (64 - c.fill))) 0 (d.drop (d.length - (c.fill + d.length) % 64))⟩ := by
  have hf := fill_lt c
  have hwindow : (pending c ++ d).take 64 = pending c ++ d.take (64 - c.fill) := by
    rw [List.take_append, pending_length, List.take_of_length_le (by rw [pending_length]; omega)]
  have hleft : 64 - c.fill + 64 * ((d.length - (64 - c.fill)) / 64) = d.length - (c.fill + d.length) % 64 := by omega
  simp only [absorb, if_pos h, first_window c h, hwindow, List.length_drop, List.drop_drop, hleft]

/-- The buffer after data that fills the block, byte by byte. -/
theorem absorb_of_long_buf_getD {c : Ctx} {d : List Byte} (h : 63 < c.fill + d.length) {p : Nat} (hp : p < 64) :
    (absorb c d).buf.toList.getD p 0 =
      if p < (c.fill + d.length) % 64 then d.getD (d.length - (c.fill + d.length) % 64 + p) 0
      else if p < c.fill then c.buf.toList.getD p 0 else d.getD (p - c.fill) 0 := by
  have hf := fill_lt c
  have hleft : (d.drop (d.length - (c.fill + d.length) % 64)).length = (c.fill + d.length) % 64 := by
    rw [List.length_drop]
    omega
  have hwindow : (d.take (64 - c.fill)).length = 64 - c.fill := by
    rw [List.length_take]
    omega
  rw [absorb_of_long h, splice_getD _ (by omega), splice_getD _ (by omega), hleft, hwindow]
  simp only [List.getD_eq_getElem?_getD]
  rcases lt_or_ge p ((c.fill + d.length) % 64) with hfront | hfront
  · rw [if_pos ⟨p.zero_le, by omega⟩, if_pos hfront, List.getElem?_drop, Nat.sub_zero]
  rw [if_neg (by omega), if_neg hfront.not_gt]
  rcases lt_or_ge p c.fill with hpend | hpend
  · rw [if_neg (by omega), if_pos hpend]
  · rw [if_pos ⟨hpend, by omega⟩, if_neg hpend.not_gt, List.getElem?_take_of_lt (by omega)]

theorem absorb_nil (c : Ctx) : absorb c [] = c := by
  have hf := fill_lt c
  have hbuf : splice c.buf c.fill [] = c.buf := by
    rw [← Vector.toList_inj, splice_toList _ (by rw [List.length_nil]; omega), List.append_nil, List.length_nil,
      Nat.add_zero, List.take_append_drop]
  rw [absorb_of_short (by rw [List.length_nil]; omega), hbuf, List.length_nil, addCount_zero]

theorem compressWindows_one (h : HashWords) (x : List Byte) : compressWindows 1 h x = compress h (x.take 64) := rfl

/-- The windows, compressed one after the other. -/
theorem compressWindows_eq_foldl (n : Nat) (h : HashWords) (x : List Byte) :
    compressWindows n h x = (List.range n).foldl (fun h k => compress h ((x.drop (64 * k)).take 64)) h := by
  induction n with
  | zero => rfl
  | succ n ih => rw [compressWindows_add, ih, compressWindows_one, List.range_succ, List.foldl_append]; rfl

/-! ### Contexts no later hash can tell apart (R109, R112) -/

/-- Equal state words, equal counts, and equal pending bytes: all that a later hash reads of a context. -/
structure Ctx.SameHash (c d : Ctx) : Prop where
  h : c.h = d.h
  count : c.count = d.count
  pending : pending c = pending d

theorem Ctx.SameHash.refl (c : Ctx) : c.SameHash c := ⟨rfl, rfl, rfl⟩

theorem Ctx.SameHash.trans {c d e : Ctx} (hcd : c.SameHash d) (hde : d.SameHash e) : c.SameHash e :=
  ⟨hcd.h.trans hde.h, hcd.count.trans hde.count, hcd.pending.trans hde.pending⟩

theorem Ctx.SameHash.fill {c d : Ctx} (h : c.SameHash d) : c.fill = d.fill := by
  rw [fill_eq, fill_eq, h.count]

/-- An update keeps them so. -/
theorem Ctx.SameHash.absorb {c d : Ctx} (h : c.SameHash d) (x : List Byte) :
    (absorb c x).SameHash (absorb d x) where
  h := by rw [absorb_h, absorb_h, h.h, h.fill, h.pending]
  count := by rw [absorb_count, absorb_count, h.count]
  pending := by rw [absorb_pending, absorb_pending, h.fill, h.pending]

theorem Ctx.SameHash.padZeros {c d : Ctx} (h : c.SameHash d) (fuel : Nat) :
    (padZeros fuel c).SameHash (padZeros fuel d) := by
  induction fuel generalizing c d with
  | zero => exact h
  | succ fuel ih =>
    rw [Machine.padZeros, Machine.padZeros, h.fill]
    split
    · exact h
    · exact ih (h.absorb _)

/-- They finish alike. -/
theorem Ctx.SameHash.finish {c d : Ctx} (h : c.SameHash d) : finish c = finish d := by
  have hcount : countBytes c = countBytes d := by
    rw [countBytes, countBytes, countHi, countLo, countHi, countLo, h.count]
  have hpadded := (((h.absorb [0x80#8]).padZeros 64).absorb (countBytes c)).h
  rw [Machine.finish, Machine.finish, padded, padded, hpadded, hcount]

/-- The whole blocks of the pending bytes and the data lie within them. -/
theorem whole_blocks_le (c : Ctx) (d : List Byte) : 64 * ((c.fill + d.length) / 64) ≤ (pending c ++ d).length := by
  rw [List.length_append, pending_length]
  exact Nat.mul_div_le _ 64

/-- Two updates are one of both strings: the windows the first leaves over begin with its pending bytes. -/
theorem absorb_append (c : Ctx) (a b : List Byte) : (absorb (absorb c a) b).SameHash (absorb c (a ++ b)) where
  h := by
    have hsplit : (c.fill + (a ++ b).length) / 64 =
        (c.fill + a.length) / 64 + ((c.fill + a.length) % 64 + b.length) / 64 := by
      rw [List.length_append]
      omega
    have hlen := whole_blocks_le c a
    rw [absorb_h, absorb_h, absorb_h, absorb_fill, absorb_pending, hsplit, compressWindows_add, ← List.append_assoc,
      compressWindows_append _ _ _ hlen, List.drop_append_of_le_length hlen]
  count := by simp only [absorb_count, addCount_addCount, List.length_append]
  pending := by
    have hlen := whole_blocks_le c a
    rw [absorb_pending, absorb_pending, absorb_pending, absorb_fill, ← List.drop_append_of_le_length hlen,
      List.append_assoc, List.drop_drop, List.length_append]
    congr 1
    omega

/-- An update per fragment is one of their concatenation. -/
theorem foldl_absorb_flatten (c : Ctx) (frags : List (List Byte)) :
    (frags.foldl absorb c).SameHash (absorb c frags.flatten) := by
  induction frags generalizing c with
  | nil => rw [List.flatten_nil, absorb_nil]; exact .refl c
  | cons f frags ih => exact (ih (absorb c f)).trans (absorb_append c f frags.flatten)

/-! ### Padding (R113) -/

/-- The zero loop absorbs the zeros that bring the fill level to 56. -/
theorem padZeros_eq_zeros {fuel m : Nat} {c : Ctx} (hm : m ≤ fuel) (hlt : m < 64) (hfill : (c.fill + m) % 64 = 56) :
    (padZeros fuel c).SameHash (absorb c (zeros m)) := by
  have hf := fill_lt c
  induction fuel generalizing c m with
  | zero =>
    obtain rfl : m = 0 := by omega
    rw [padZeros, zeros, List.replicate_zero, absorb_nil]
    exact .refl c
  | succ fuel ih =>
    rw [padZeros]
    cases m with
    | zero =>
      rw [if_pos (by omega), zeros, List.replicate_zero, absorb_nil]
      exact .refl c
    | succ m =>
      have hnext : (absorb c [0x00#8]).fill = (c.fill + 1) % 64 := absorb_fill c [0x00#8]
      rw [if_neg (by omega)]
      exact (ih (by omega) (by omega) (by omega) (fill_lt _)).trans (absorb_append c [0x00#8] (zeros m))

/-- Padding absorbs 0x80, zeros up to fill level 56, and the count. -/
theorem padded_eq_absorb {c : Ctx} {m : Nat} (hlt : m < 64) (hfill : (c.fill + 1 + m) % 64 = 56) :
    (padded c).SameHash (absorb c ([0x80#8] ++ zeros m ++ countBytes c)) := by
  have hmark : (absorb c [0x80#8]).fill = (c.fill + 1) % 64 := absorb_fill c [0x80#8]
  have hzeros := padZeros_eq_zeros (fuel := 64) (c := absorb c [0x80#8]) hlt.le hlt (by omega)
  exact (hzeros.absorb _).trans (((absorb_append c _ _).absorb _).trans (absorb_append c _ _))

/-- The digest, with the whole blocks that the pending bytes and the padding make. -/
theorem finish_digest {c : Ctx} {m : Nat} (hlt : m < 64) (hfill : (c.fill + 1 + m) % 64 = 56) :
    (finish c).1 = digestBytes (compressWindows ((c.fill + (1 + m + 8)) / 64) c.h
      (pending c ++ ([0x80#8] ++ zeros m ++ countBytes c))) := by
  have hlen : ([0x80#8] ++ zeros m ++ countBytes c).length = 1 + m + 8 := by
    simp only [List.length_append, List.length_singleton, zeros_length, countBytes_length]
  rw [finish, (padded_eq_absorb hlt hfill).h, absorb_h, hlen]

/-! ### The bytes of a digest (R115) -/

open BitVec in
/-- A word is the big-endian word of its big-endian bytes (R11). -/
theorem be32_be32bytes (w : Word) (rest : List Byte) : be32 ((be32bytes w ++ rest).take 4) = w := by
  change w.extractLsb' 24 8 ++ w.extractLsb' 16 8 ++ w.extractLsb' 8 8 ++ w.extractLsb' 0 8 = w
  rw [extractLsb'_append_extractLsb'_eq_extractLsb' (by decide),
    extractLsb'_append_extractLsb'_eq_extractLsb' (by decide), extractLsb'_append_extractLsb'_eq_extractLsb' (by decide)]
  exact extractLsb'_eq_self

/-! ### The rounds of a compression (R100 to R104) -/

/-- Of the rounds below 80, twenty run in each phase. -/
theorem phase_select {α : Type} (f : Nat → α) {i : Nat} (h : i < 80) :
    f (i / 20) = if i < 20 then f 0 else if i < 40 then f 1 else if i < 60 then f 2 else f 3 := by
  split_ifs
  · rw [show i / 20 = 0 by omega]
  · rw [show i / 20 = 1 by omega]
  · rw [show i / 20 = 2 by omega]
  · rw [show i / 20 = 3 by omega]

theorem sha1Rounds_succ (n : Nat) (k : Work) :
    sha1Rounds (n + 1) k = sha1Round n (expandSchedule n (sha1Rounds n k)) := by
  rw [sha1Rounds, List.range_succ, List.foldl_append]
  rfl

/-- Word `t` of a block is its bytes `4t` to `4t + 3`, big-endian (R100). -/
theorem schedWord_blockWords (block : List Byte) (k : Work) (t : Fin 16) :
    schedWord { k with w := blockWords block } t.val = block.getD (4 * t.val) 0 ++ block.getD (4 * t.val + 1) 0 ++
      block.getD (4 * t.val + 2) 0 ++ block.getD (4 * t.val + 3) 0 := by
  simp (disch := decide) only [schedWord, blockWords, Vector.getElem_ofFn, Nat.mod_eq_of_lt t.isLt, be32, getD_take_drop,
    Nat.add_zero]

theorem schedWord_congr (k : Work) {i j : Nat} (h : i % 16 = j % 16) : schedWord k i = schedWord k j := by
  simp only [schedWord, h]

theorem expandSchedule_of_lt {i : Nat} (h : i < 16) (k : Work) : expandSchedule i k = k := if_pos h

/-- From round 16 on the update replaces the schedule word of its round (R103). -/
theorem schedWord_expandSchedule {i : Nat} (h : 16 ≤ i) (k : Work) (j : Nat) :
    schedWord (expandSchedule i k) j = if j % 16 = i % 16 then
      rol 1 (schedWord k (i - 3) ^^^ schedWord k (i - 8) ^^^ schedWord k (i - 14) ^^^ schedWord k i)
      else schedWord k j := by
  rw [expandSchedule, if_neg (by omega)]
  simp only [schedWord, Vector.getElem_set, eq_comm (a := j % 16)]

/-- No schedule update changes a working variable. -/
theorem expandSchedule_frame (i : Nat) (k : Work) : ∃ w, expandSchedule i k = { k with w := w } := by
  unfold expandSchedule
  split
  · exact ⟨k.w, rfl⟩
  · exact ⟨_, rfl⟩

/-! ### The obligations -/

/-- Settles O32: contexts equal below the fill level finish alike. -/
theorem fillFromCount : Obligations.FillFromCount := by
  refine fun c => ⟨rfl, fill_eq c, Nat.le_of_lt_succ (fill_lt c), fun d hh hcount hbuf => ?_⟩
  have hfill : d.fill = c.fill := by rw [fill_eq, fill_eq, hcount]
  have hsame : d.SameHash c := ⟨hh, hcount, by rw [pending, hfill, hbuf, pending]⟩
  rw [hsame.finish]

/-- Settles O33: the carry into the high half is what the low half no longer holds. -/
theorem countInHalves : Obligations.CountInHalves := by
  intro c d
  have hcount : (absorb c d).count.toNat = (c.count.toNat + 8 * d.length) % 2 ^ 64 := by
    rw [absorb_count, addCount_toNat]
  have hhalves := count_eq_halves c
  have hhi := c.countHi.isLt
  refine ⟨hcount, ?_, ?_⟩
  · rw [countLo_toNat, hcount]
    omega
  · rw [countHi_toNat, hcount]
    omega

/-- Settles O34: short data is one splice into the buffer; long data is compressed in windows, of which the first stays in
the buffer under the bytes left over. -/
theorem absorbShort : Obligations.AbsorbShort := by
  intro c d
  have hf := fill_lt c
  refine ⟨absorb_nil c, fun h => ?_, fun h => ⟨?_, fun p hp => ?_⟩⟩
  · rw [absorb_of_short h]
    exact ⟨rfl, fun p _ => splice_getD _ (by omega) p⟩
  · rw [absorb_of_long h, compressWindows_eq_foldl]
    simp only [List.drop_drop]
    rfl
  · exact absorb_of_long_buf_getD h hp

/-- Settles O35: two updates and one of both strings leave contexts no later hash can tell apart. -/
theorem chunkingIndependent : Obligations.ChunkingIndependent := by
  intro c a b
  have hsame := absorb_append c a b
  have hpending := hsame.pending
  rw [pending, pending, hsame.fill] at hpending
  exact ⟨hsame.h, hsame.count, hpending⟩

/-- Settles O36: the pending bytes and the padding are one whole block or two. -/
theorem finishCompressions : Obligations.FinishCompressions := by
  intro c
  have hf := fill_lt c
  refine ⟨fun h => ?_, fun h => ?_⟩
  · have hblocks : (c.fill + (1 + (55 - c.fill) + 8)) / 64 = 1 := by omega
    rw [finish_digest (m := 55 - c.fill) (by omega) (by omega), hblocks, compressWindows_one, List.take_of_length_le]
    · simp only [pending, countBytes, List.append_assoc]
    · simp only [List.length_append, List.length_singleton, pending_length, zeros_length, be32bytes_length, countBytes]
      omega
  · have hblocks : (c.fill + (1 + (63 - c.fill + 56) + 8)) / 64 = 1 + 1 := by omega
    have hfirst : (pending c ++ [0x80#8] ++ zeros (63 - c.fill)).length = 64 := by
      simp only [List.length_append, List.length_singleton, pending_length, zeros_length]
      omega
    have hsplit : pending c ++ ([0x80#8] ++ zeros (63 - c.fill + 56) ++ countBytes c) =
        pending c ++ [0x80#8] ++ zeros (63 - c.fill) ++ (zeros 56 ++ countBytes c) := by
      simp only [zeros, List.replicate_add, List.append_assoc]
    rw [finish_digest (m := 63 - c.fill + 56) (by omega) (by omega), hblocks, hsplit, compressWindows_add,
      compressWindows_one, compressWindows_one, List.take_left' hfirst, List.drop_left' hfirst, List.take_of_length_le]
    · simp only [pending, countBytes, List.append_assoc]
    · simp

/-- Settles O37: the digest is the bytes of the state words, group by group. -/
theorem digestBigEndian : Obligations.DigestBigEndian := fun h c =>
  ⟨digestBytes_length h, ⟨be32_be32bytes h.h0 _, be32_be32bytes h.h1 _, be32_be32bytes h.h2 _, be32_be32bytes h.h3 _,
    be32_be32bytes h.h4 []⟩, rfl, finish_ctx c⟩

/-- Settles O38: an update per fragment is one of the concatenation. -/
theorem sha1OfConcatenation : Obligations.Sha1OfConcatenation := fun frags =>
  congrArg Prod.fst (foldl_absorb_flatten (initCtx Ctx.zero) frags).finish

/-- Settles O40: the block's words, the update of one schedule word, and a round under the function and constant of its
phase. -/
theorem scheduleInPlace : Obligations.ScheduleInPlace := by
  refine ⟨schedWord_blockWords,
    fun k i j => ⟨rfl, sha1Rounds_succ i k, fun h => expandSchedule_of_lt h k, fun h => ⟨?_, ?_⟩⟩,
    fun k i h => ⟨?_, rfl, rfl, rfl, rfl, rfl⟩, ?_⟩
  · rintro x rfl
    rw [schedWord_expandSchedule h, schedWord_congr k (show (i - 16) % 16 = i % 16 by omega)]
    rfl
  · obtain ⟨w, hw⟩ := expandSchedule_frame i k
    rw [hw]
    exact ⟨rfl, rfl, rfl, rfl, rfl⟩
  · have hmix := phase_select (mixFn · k.b k.c k.d) h
    have hconst := phase_select phaseConst h
    simp only [sha1Round, hmix, hconst]
    rfl
  · rintro h block k rfl
    rfl

end Sys2Proof.Machine

/-! ## The SHA-1 commands (41_sha1_commands.md)

First what a hash no longer sees of the buffer once it is initialised, then what a result write leaves for the host to read,
then each command where its accesses pass their checks; last the obligations these facts settle. -/

namespace Sys2Proof.Machine

/-! ### Hashes from different buffers (R117, R134) -/

/-- An initialised context has no pending bytes, whatever its buffer holds (R117). -/
theorem pending_initCtx (c : Ctx) : pending (initCtx c) = [] := by
  have hfill : (initCtx c).fill = 0 := by rw [fill_eq, initCtx_count]; rfl
  rw [pending, hfill, List.take_zero]

theorem initCtx_sameHash (c d : Ctx) : (initCtx c).SameHash (initCtx d) :=
  ⟨rfl, rfl, by rw [pending_initCtx, pending_initCtx]⟩

/-- An update per fragment keeps contexts that no later hash can tell apart so. -/
theorem Ctx.SameHash.foldl_absorb {c d : Ctx} (h : c.SameHash d) (frags : List (List Byte)) :
    (frags.foldl Machine.absorb c).SameHash (frags.foldl Machine.absorb d) := by
  induction frags generalizing c d with
  | nil => exact h
  | cons f frags ih => exact ih (h.absorb f)

/-! ### What the host reads when a command has completed (R38, R59, R132) -/

/-- The write that completes a command leaves its bytes in memory while no other agent has touched a byte (R62). -/
theorem complete_afterWrite_holds {s : State} {a : Nat} {v : List Byte} (i : Instr) (code : ResultCode) (hm : s.mem.wf)
    (hw : s.sharing.writes = []) (hr : s.sharing.reads = []) :
    MemoryHolds (complete i code (afterWrite s a v)) a v := by
  have hquiet : touched (afterWrite s a v) = [] := by rw [touched_afterWrite, touched_quiet hw hr]
  intro k hk
  rw [complete_mem, raceDestinations_quiet _ hquiet, afterWrite_read_inside hm hw hr hk]

/-- The registers of the visible context depend on nothing else. -/
theorem regValue_ctx_congr {s t : State} (hc : t.ctx = s.ctx) {r : Reg} (hr : r ∈ ctxRegs) :
    regValue t r = regValue s r := by
  rw [mem_ctxRegs] at hr
  cases r with
  | ctxH _ | ctxCountLo | ctxCountHi | ctxBuf _ => simp only [regValue, hc]
  | _ => cases hr

/-- A zero context reads as it does after reset (R29 to R31, R45). -/
theorem regValue_ctx_zero {s : State} (hc : s.ctx = Ctx.zero) {r : Reg} (hr : r ∈ ctxRegs) : regValue s r = 0 := by
  obtain ⟨hreset, -⟩ := resetState
  exact (regValue_ctx_congr (s := State.reset) hc hr).trans (hreset r)

/-! ### The commands where their accesses pass their checks (R130 to R133) -/

/-- SHA1_INIT makes no access. -/
theorem exec_sha1Init (s : State) :
    exec .sha1Init s = .next (complete .sha1Init .ok (setCtxValid true (setCtx (initCtx s.ctx) s))) := rfl

theorem exec_sha1Update_of_check {s : State} (hv : s.status.ctxValid = true)
    (hc : checkAccess s .read s.ops.srcAddr s.ops.srcLen.toNat = .ok ()) :
    exec .sha1Update s = .next (complete .sha1Update .ok
      (setCtx (absorb s.ctx (engineBytes s 1 s.ops.srcAddr s.ops.srcLen.toNat)) s)) := by
  simp only [exec, execSha1Update, if_pos hv, memRead_ok_iff.2 ⟨hc, rfl⟩]

theorem exec_sha1Final_of_check {s : State} (hv : s.status.ctxValid = true)
    (hc : checkAccess s .write s.ops.dstAddr 20 = .ok ()) :
    exec .sha1Final s = .next (complete .sha1Final .ok
      (afterWrite (setCtxValid false (setCtx Ctx.zero s)) s.ops.dstAddr (finish s.ctx).1)) := by
  rw [exec, execSha1Final, if_pos hv, finish_ctx]
  exact writeAndComplete_of_check (by rwa [finish_length])

theorem exec_sha1Vector_of_admitted {s : State} (hf : FragsAdmitted s s.ops.srcAddr s.ops.srcLen.toNat)
    (hc : checkAccess s .write s.ops.dstAddr 20 = .ok ()) :
    exec .sha1Vector s = .next (complete .sha1Vector .ok
      (afterWrite s s.ops.dstAddr (sha1 (fragBytes s s.ops.srcAddr s.ops.srcLen.toNat)))) := by
  simp only [exec, execSha1Vector, readFrags_of_admitted hf]
  exact writeAndComplete_of_check (by rwa [sha1_length])

/-! ### The obligations -/

/-- Settles O39: initialised contexts differ at most in buffer bytes that no hash reads. -/
theorem incrementalEqualsVector : Obligations.IncrementalEqualsVector := fun c frags =>
  congrArg Prod.fst ((initCtx_sameHash c Ctx.zero).foldl_absorb frags).finish

/-- Settles O42: SHA1_INIT makes no access, so nothing can stop it. -/
theorem sha1InitCompletes : Obligations.Sha1InitCompletes := by
  refine ⟨decode_encode .sha1Init, fun s => ?_⟩
  have h := exec_sha1Init s
  exact ⟨_, h, ⟨rfl, rfl, rfl⟩, rfl, rfl, rfl, rfl, exec_mem_of_no_destination h rfl, exec_commandFrame h⟩

/-- Settles O43: the read passes its check, and SHA1_UPDATE has no destination. -/
theorem sha1UpdateCompletes : Obligations.Sha1UpdateCompletes := by
  intro s hv hc
  have h := exec_sha1Update_of_check hv hc
  exact ⟨_, h, ⟨rfl, rfl, rfl⟩, hv, rfl, exec_mem_of_no_destination h rfl, exec_commandFrame h⟩

/-- Settles O44: the digest of the context before it is zeroed is the one write of the command. -/
theorem sha1FinalCompletes : Obligations.Sha1FinalCompletes := by
  intro s hm hv hw hr hc
  have h := exec_sha1Final_of_check hv hc
  have hdigest := complete_afterWrite_holds (s := setCtxValid false (setCtx Ctx.zero s)) (a := s.ops.dstAddr)
    (v := (finish s.ctx).1) .sha1Final .ok hm hw hr
  exact ⟨_, h, ⟨rfl, rfl, rfl⟩, rfl, hdigest, fun _ => exec_read_outside h, fun _ => regValue_ctx_zero rfl,
    exec_commandFrame h⟩

/-- Settles O46: `ReadFrags` answers the fragments, and their digest is the one write of the command. -/
theorem sha1VectorCompletes : Obligations.Sha1VectorCompletes := by
  intro s hm hw hr hf hc
  have h := exec_sha1Vector_of_admitted hf hc
  obtain ⟨hctx, hvalid, -⟩ := compositeLeavesContext .sha1Vector s _ (by decide) h
  exact ⟨_, h, ⟨rfl, rfl, rfl⟩, hvalid, hctx, complete_afterWrite_holds _ _ hm hw hr, fun _ => exec_read_outside h,
    exec_commandFrame h⟩

end Sys2Proof.Machine

/-! ## The HMAC commands (42_hmac_commands.md)

First the two nested hashes and the shortening of a long key, then each command where its accesses pass their checks, then
the table of one descriptor that names a data range; last the obligations these facts settle. -/

namespace Sys2Proof.Machine

/-! ### The nested hashes (R151 to R154) -/

/-- A key of at most 64 bytes is used as it is (R151). -/
theorem shortenKey_of_le {key : List Byte} (h : key.length ≤ 64) : shortenKey key = key := if_neg (not_lt.2 h)

/-- A longer key becomes its digest (R151). -/
theorem shortenKey_of_lt {key : List Byte} (h : 64 < key.length) : shortenKey key = sha1 [key] := if_pos h

theorem hmacFn_congr {key key' : List Byte} (h : shortenKey key = shortenKey key') (frags : List (List Byte)) :
    hmacFn key frags = hmacFn key' frags := by
  rw [hmacFn, hmacFn, innerDigest, innerDigest, h]

/-- HMAC is two nested hashes of one string each: under either pad the pieces are hashed as their concatenation (R118). -/
theorem hmacFn_eq_nested (key : List Byte) (frags : List (List Byte)) :
    hmacFn key frags = sha1 [hmacPad (shortenKey key) 0x5c#8 ++
      sha1 [hmacPad (shortenKey key) 0x36#8 ++ frags.flatten]] := by
  rw [hmacFn, innerDigest, sha1OfConcatenation [_, _], sha1OfConcatenation (_ :: frags), List.flatten_cons,
    List.flatten_singleton, List.flatten_cons]

/-! ### The commands where their accesses pass their checks (R156, R157) -/

theorem exec_hmacVector_of_admitted {s : State} (hn : s.ops.srcLen.toNat ≤ 5)
    (hk : checkAccess s .read s.ops.keyAddr s.ops.keyLen.toNat = .ok ())
    (hf : FragsAdmitted s s.ops.srcAddr s.ops.srcLen.toNat) (hc : checkAccess s .write s.ops.dstAddr 20 = .ok ()) :
    exec .hmacVector s = .next (complete .hmacVector .ok (afterWrite s s.ops.dstAddr
      (hmacFn (engineBytes s 0 s.ops.keyAddr s.ops.keyLen.toNat) (fragBytes s s.ops.srcAddr s.ops.srcLen.toNat)))) := by
  simp only [exec, execHmacVector, if_neg (not_lt.2 hn), memRead_ok_iff.2 ⟨hk, rfl⟩, readFrags_of_admitted hf]
  exact writeAndComplete_of_check (by rwa [hmacFn_length])

theorem exec_hmac_of_admitted {s : State} (hk : checkAccess s .read s.ops.keyAddr s.ops.keyLen.toNat = .ok ())
    (hs : checkAccess s .read s.ops.srcAddr s.ops.srcLen.toNat = .ok ())
    (hc : checkAccess s .write s.ops.dstAddr 20 = .ok ()) :
    exec .hmac s = .next (complete .hmac .ok (afterWrite s s.ops.dstAddr
      (hmacFn (engineBytes s 0 s.ops.keyAddr s.ops.keyLen.toNat)
        [engineBytes s 1 s.ops.srcAddr s.ops.srcLen.toNat]))) := by
  simp only [exec, execHmac, memRead_ok_iff.2 ⟨hk, rfl⟩, memRead_ok_iff.2 ⟨hs, rfl⟩]
  exact writeAndComplete_of_check (by rwa [hmacFn_length])

/-- A composite command whose one write is that of its result leaves the result in its destination, and changes nothing
else that the host can read (R47, R59). -/
theorem composite_completes {i : Instr} {s : State} {v : List Byte}
    (hi : i ∉ [Instr.sha1Init, Instr.sha1Update, Instr.sha1Final]) (hm : s.mem.wf) (hw : s.sharing.writes = [])
    (hr : s.sharing.reads = []) (h : exec i s = .next (complete i .ok (afterWrite s s.ops.dstAddr v))) :
    ∃ t, exec i s = .next t ∧ CompletedWith .ok t ∧ t.status.ctxValid = s.status.ctxValid ∧ t.ctx = s.ctx ∧
      MemoryHolds t s.ops.dstAddr v ∧ MemorySameOutside s.ops.dstAddr (destLength i) s t ∧ CommandFrame s t := by
  obtain ⟨hctx, hvalid, -⟩ := compositeLeavesContext i s _ hi h
  exact ⟨_, h, ⟨rfl, rfl, rfl⟩, hvalid, hctx, complete_afterWrite_holds i .ok hm hw hr, fun _ => exec_read_outside h,
    exec_commandFrame h⟩

/-! ### A table of one descriptor (R55, R56, R158) -/

/-- The state with the source operands of a fragment table of one descriptor at `tab`. -/
def withOneDescriptor (tab : Addr) (s : State) : State :=
  { s with ops := { s.ops with
      srcAddrLo := tab.extractLsb' 0 32, srcAddrHi := tab.extractLsb' 32 32, srcLen := 1 } }

/-- An address written in halves is assembled again (R23). -/
@[simp] theorem withOneDescriptor_srcAddr (tab : Addr) (s : State) : (withOneDescriptor tab s).ops.srcAddr = tab.toNat := by
  have hwhole : tab.extractLsb' 32 32 ++ tab.extractLsb' 0 32 = tab :=
    (BitVec.extractLsb'_append_extractLsb'_eq_extractLsb' rfl).trans BitVec.extractLsb'_eq_self
  exact congrArg BitVec.toNat hwhole

@[simp] theorem withOneDescriptor_srcLen (tab : Addr) (s : State) : (withOneDescriptor tab s).ops.srcLen.toNat = 1 := rfl
@[simp] theorem withOneDescriptor_keyAddr (tab : Addr) (s : State) : (withOneDescriptor tab s).ops.keyAddr = s.ops.keyAddr := rfl
@[simp] theorem withOneDescriptor_keyLen (tab : Addr) (s : State) : (withOneDescriptor tab s).ops.keyLen = s.ops.keyLen := rfl
@[simp] theorem withOneDescriptor_dstAddr (tab : Addr) (s : State) : (withOneDescriptor tab s).ops.dstAddr = s.ops.dstAddr := rfl
@[simp] theorem withOneDescriptor_mem (tab : Addr) (s : State) : (withOneDescriptor tab s).mem = s.mem := rfl

/-- The source operands are no part of what the duties of R62 and R66 speak of. -/
theorem dutiesKept_withOneDescriptor {s : State} (h : s.DutiesKept) (tab : Addr) : (withOneDescriptor tab s).DutiesKept := by
  obtain ⟨hw, hr, hu, hd⟩ := h
  have hupcoming : upcoming (withOneDescriptor tab s) = upcoming s := upcoming_congr rfl rfl rfl
  exact ⟨hw, hr, hupcoming.trans hu, hd⟩

/-- While the duties are kept, every access of the engine reads the bytes of memory, whatever its number. -/
theorem engineBytes_quiet {s : State} (h : s.DutiesKept) (k a n : Nat) :
    engineBytes s k a n = (List.range n).map fun i => s.mem.read (a + i) := by
  obtain ⟨hw, hr, hu, hd⟩ := h
  simp only [engineBytes, engineByte_quiet hw hr hu hd]

/-- The fragments of a table of one descriptor are the one range that it names. -/
theorem fragBytes_one {s : State} {tab a n : Nat} (ha : fragAddr (tableBytes s tab 1) 0 = a)
    (hn : fragLen (tableBytes s tab 1) 0 = n) : fragBytes s tab 1 = [engineBytes s 2 a n] := by
  rw [← ha, ← hn]
  rfl

theorem fragsAdmitted_one {s : State} {tab a n : Nat} (ht : Admitted s .read tab 16)
    (ha : fragAddr (tableBytes s tab 1) 0 = a) (hn : fragLen (tableBytes s tab 1) 0 = n) (hd : Admitted s .read a n) :
    FragsAdmitted s tab 1 := by
  refine ⟨ht, fun k hk => ?_⟩
  obtain rfl : k = 0 := Nat.lt_one_iff.1 hk
  rwa [ha, hn]

/-- While the duties are kept, HMAC_VECTOR over a table of one descriptor writes the MAC of the range that it names: the key
and the data are the bytes of memory, whatever the numbers of the accesses. -/
theorem exec_hmacVector_withOneDescriptor {s : State} {tab : Addr} (h : s.DutiesKept)
    (hk : Admitted s .read s.ops.keyAddr s.ops.keyLen.toNat) (hs : Admitted s .read s.ops.srcAddr s.ops.srcLen.toNat)
    (hc : Admitted s .write s.ops.dstAddr 20) (ht : Admitted s .read tab.toNat 16)
    (ha : fragAddr ((List.range 16).map fun i => s.mem.read (tab.toNat + i)) 0 = s.ops.srcAddr)
    (hn : fragLen ((List.range 16).map fun i => s.mem.read (tab.toNat + i)) 0 = s.ops.srcLen.toNat) :
    exec .hmacVector (withOneDescriptor tab s) = .next (complete .hmacVector .ok
      (afterWrite (withOneDescriptor tab s) s.ops.dstAddr (hmacFn (engineBytes s 0 s.ops.keyAddr s.ops.keyLen.toNat)
        [engineBytes s 1 s.ops.srcAddr s.ops.srcLen.toNat]))) := by
  have hquiet := engineBytes_quiet (dutiesKept_withOneDescriptor h tab)
  have htable : tableBytes (withOneDescriptor tab s) tab.toNat 1 =
      (List.range 16).map fun i => s.mem.read (tab.toNat + i) := hquiet 1 tab.toNat 16
  rw [← htable] at ha hn
  have hfrags : FragsAdmitted (withOneDescriptor tab s) tab.toNat 1 := fragsAdmitted_one ht ha hn hs
  rw [exec_hmacVector_of_admitted (s := withOneDescriptor tab s) (by simp) hk (by simpa using hfrags) hc]
  simp only [withOneDescriptor_srcAddr, withOneDescriptor_srcLen, withOneDescriptor_keyAddr, withOneDescriptor_keyLen,
    withOneDescriptor_dstAddr, withOneDescriptor_mem, fragBytes_one ha hn, hquiet, engineBytes_quiet h]

/-- A result write leaves the same memory, STATUS and context whatever the source operands, and under either of the two
commands, whose destinations are the same. -/
theorem complete_withOneDescriptor {s : State} (hw : s.sharing.writes = []) (hr : s.sharing.reads = []) (tab : Addr)
    (a : Nat) (v : List Byte) {t u : State} (ht : t = complete .hmac .ok (afterWrite s a v))
    (hu : u = complete .hmacVector .ok (afterWrite (withOneDescriptor tab s) a v)) :
    u.mem = t.mem ∧ u.status = t.status ∧ u.ctx = t.ctx := by
  subst ht hu
  have hquiet : touched (afterWrite s a v) = [] := touched_quiet hw hr
  have hquiet' : touched (afterWrite (withOneDescriptor tab s) a v) = [] := touched_quiet hw hr
  refine ⟨?_, rfl, rfl⟩
  rw [complete_mem, complete_mem, raceDestinations_quiet _ hquiet, raceDestinations_quiet _ hquiet', afterWrite_mem,
    afterWrite_mem, destBytes_quiet hw hr, destBytes_quiet (s := withOneDescriptor tab s) hw hr, withOneDescriptor_mem]

/-! ### The obligations -/

/-- Settles O41: hashing the pieces is hashing their concatenation, and a digest is too short to be shortened again. -/
theorem hmacNestedHashes : Obligations.HmacNestedHashes := by
  refine fun key frags => ⟨hmacFn_length key frags, fun h => ?_, fun h => ⟨hmacFn_congr ?_ frags, sha1_length _⟩⟩
  · rw [hmacFn_eq_nested, shortenKey_of_le h]
    rfl
  · rw [shortenKey_of_lt h, shortenKey_of_le (by rw [sha1_length]; decide)]

/-- Settles O47: the key and the fragments are read, and their MAC is the one write of the command. -/
theorem hmacVectorCompletes : Obligations.HmacVectorCompletes := fun _ hm hw hr hn hk hf hc =>
  composite_completes (by decide) hm hw hr (exec_hmacVector_of_admitted hn hk hf hc)

/-- Settles O49: the key and the data are read, and their MAC is the one write of the command. -/
theorem hmacCompletes : Obligations.HmacCompletes := fun _ hm hw hr hk hs hc =>
  composite_completes (by decide) hm hw hr (exec_hmac_of_admitted hk hs hc)

/-- Settles O54: both commands read the same key and the same data, though in accesses of other numbers, and write their
MAC to the same destination. -/
theorem hmacFormsAgree : Obligations.HmacFormsAgree := by
  intro s tab t _ hduties hexec htab haddr hlen
  obtain ⟨hk, hs, hc, ht⟩ := execHmac_next hexec
  have hvector := exec_hmacVector_withOneDescriptor hduties hk hs hc htab haddr hlen
  obtain ⟨hw, hr, -⟩ := hduties
  exact ⟨_, hvector, complete_withOneDescriptor hw hr tab _ _ ht rfl⟩

end Sys2Proof.Machine

/-! ## The EAPOL-Key MIC command (43_mic_command.md)

First what the zero write leaves of the old MIC field, then the command where its accesses pass their checks; last the
obligations these facts settle. -/

namespace Sys2Proof.Machine

/-! ### A write hides what its range held (R171, R174) -/

/-- States that differ in the bytes of a range only are the same state after that range is written. -/
theorem afterWrite_eq_of_same_outside {s : State} {m : Memory} {a : Nat} {v : List Byte} (hs : s.mem.wf) (hm : m.wf)
    (hc : checkAccess s .write a v.length = .ok ())
    (hsame : ∀ b, ¬ (a ≤ b ∧ b < a + v.length) → m.read b = s.mem.read b) :
    afterWrite { s with mem := m } a v = afterWrite s a v := by
  have hdest : destBytes { s with mem := m } a v = destBytes s a v :=
    destBytes_congr (s := s) (u := { s with mem := m }) rfl rfl a v
  have hmem : m.writeBytes a (destBytes s a v) = s.mem.writeBytes a (destBytes s a v) := by
    refine eq_of_read_eq ?_ (afterWrite_wf hs hc) fun b => ?_
    · rw [← hdest]
      exact afterWrite_wf (s := { s with mem := m }) hm hc
    · rw [read_writeBytes m hm.1, read_writeBytes s.mem hs.1, destBytes_length]
      split
      · rfl
      · rename_i hout
        exact hsame b hout
  simp only [afterWrite, hdest, hmem]
  rfl

/-! ### The command where its accesses pass their checks (R170 to R173) -/

/-- Under version 2 the MIC is over the key and the frame as the zero write has left them: `z` is the state after it. -/
theorem exec_eapolMic_of_admitted {s z : State} (hz : z = afterWrite s s.ops.dstAddr (zeros 16))
    (hv : s.ops.version = 2) (hd : checkAccess s .write s.ops.dstAddr 16 = .ok ())
    (hk : checkAccess s .read s.ops.keyAddr s.ops.keyLen.toNat = .ok ())
    (hs : checkAccess s .read s.ops.srcAddr s.ops.srcLen.toNat = .ok ()) :
    exec .eapolMic s = .next (complete .eapolMic .ok (afterWrite z s.ops.dstAddr
      (micOf (engineBytes z 0 s.ops.keyAddr s.ops.keyLen.toNat)
        (engineBytes z 1 s.ops.srcAddr s.ops.srcLen.toNat)))) := by
  have hops : z.ops = s.ops := by rw [hz, afterWrite_ops]
  have hcheck : ∀ k a n, checkAccess z k a n = checkAccess s k a n := fun k a n => by rw [hz, checkAccess_afterWrite]
  rw [exec, execEapolMic_of_check hz hd, if_pos hv]
  rw [← hops, ← hcheck] at hd hk hs
  rw [hashFrame_of_checks hk hs hd, hops]

/-- Under any other version the zero write is the one access of the command (R173). -/
theorem exec_eapolMic_of_version_ne {s : State} (hv : s.ops.version ≠ 2)
    (hd : checkAccess s .write s.ops.dstAddr 16 = .ok ()) :
    exec .eapolMic s = .next (complete .eapolMic .errVersion (afterWrite s s.ops.dstAddr (zeros 16))) := by
  rw [exec, execEapolMic_of_check rfl hd, if_neg hv]

/-- EAPOL_MIC leaves the bytes of its last write in the MIC field, and changes nothing else that the host can read: `u` is
the state before that write, and no other agent has touched a byte (R47, R59). -/
theorem eapolMic_completes {s u : State} {code : ResultCode} {v : List Byte} (hm : u.mem.wf)
    (hw : u.sharing.writes = []) (hr : u.sharing.reads = [])
    (h : exec .eapolMic s = .next (complete .eapolMic code (afterWrite u s.ops.dstAddr v))) :
    ∃ t, exec .eapolMic s = .next t ∧ CompletedWith code t ∧ t.status.ctxValid = s.status.ctxValid ∧ t.ctx = s.ctx ∧
      MemoryHolds t s.ops.dstAddr v ∧ MemorySameOutside s.ops.dstAddr 16 s t ∧ CommandFrame s t := by
  obtain ⟨hctx, hvalid, -⟩ := compositeLeavesContext .eapolMic s _ (by decide) h
  exact ⟨_, h, ⟨rfl, rfl, rfl⟩, hvalid, hctx, complete_afterWrite_holds _ code hm hw hr, fun _ => exec_read_outside h,
    exec_commandFrame h⟩

/-- Where memory holds zeros, every byte reads 0. -/
theorem MemoryHolds.read_zeros {t : State} {a n : Nat} (h : MemoryHolds t a (zeros n)) {b : Nat}
    (hb : a ≤ b ∧ b < a + n) : t.mem.read b = 0 := by
  obtain ⟨k, rfl⟩ := Nat.exists_eq_add_of_le hb.1
  have hk : k < n := by omega
  rw [h k (by rwa [zeros_length]), zeros, List.getD_replicate _ hk]

/-! ### The obligations -/

/-- Settles O50: the MIC is written over the zero write, which leaves a canonical memory that no other agent has touched. -/
theorem eapolMicCompletes : Obligations.EapolMicCompletes := fun s hm hw hr hv hd hk hs =>
  eapolMic_completes (u := afterWrite s s.ops.dstAddr (zeros 16))
    (afterWrite_wf hm (by rwa [zeros_length])) hw hr (exec_eapolMic_of_admitted rfl hv hd hk hs)

/-- Settles O51: the command completes on its zero write. -/
theorem unsupportedVersion : Obligations.UnsupportedVersion := by
  intro s hm hw hr hv hd
  obtain ⟨t, hexec, hdone, hvalid, hctx, hzero, hframe⟩ :=
    eapolMic_completes hm hw hr (exec_eapolMic_of_version_ne hv hd)
  exact ⟨t, hexec, hdone, hvalid, hctx, fun _ ha => MemoryHolds.read_zeros hzero ha, hframe⟩

/-- Settles O53: the zero write makes the two states one, and the command goes on from there. -/
theorem micIgnoresOldField : Obligations.MicIgnoresOldField := by
  intro s m t hs hm _ hsame hexec
  obtain ⟨hd, -⟩ := execEapolMic_next rfl hexec
  have hzeroed : afterWrite { s with mem := m } s.ops.dstAddr (zeros 16) = afterWrite s s.ops.dstAddr (zeros 16) :=
    afterWrite_eq_of_same_outside hs hm (by rwa [zeros_length]) hsame
  calc exec .eapolMic { s with mem := m }
      = if s.ops.version = 2 then hashFrame (afterWrite s s.ops.dstAddr (zeros 16))
        else .next (complete .eapolMic .errVersion (afterWrite s s.ops.dstAddr (zeros 16))) :=
        execEapolMic_of_check hzeroed.symm hd
    _ = exec .eapolMic s := (execEapolMic_of_check rfl hd).symm
    _ = .next t := hexec

end Sys2Proof.Machine

/-! ## Results and faults (60_exceptions.md)

First with which result a command ends and what a failed one leaves, then where a command stops: at the first of its
accesses that does not pass its check; then how a turn stops; last the obligations these facts settle. -/

namespace Sys2Proof.Machine

/-! ### The result of a completed command (R201 to R206) -/

/-- The checks of a command's own rule, other than those of its accesses, all pass (R202, R203, R205). -/
structure PassesChecks (i : Instr) (s : State) : Prop where
  sequence : ¬ ((i = .sha1Update ∨ i = .sha1Final) ∧ s.status.ctxValid = false)
  fragCount : ¬ (i = .hmacVector ∧ 5 < s.ops.srcLen.toNat)
  version : ¬ (i = .eapolMic ∧ s.ops.version ≠ 2)

/-- How a command that answers the next state `t` has ended: the check it has failed and what it did before, or OK. -/
inductive EndsIn (s t : State) : Instr → Prop where
  /-- There is no hash to continue: nothing but the completion (R205). -/
  | errSequence {i : Instr} : i = .sha1Update ∨ i = .sha1Final → s.status.ctxValid = false →
      t = complete i .errSequence s → EndsIn s t i
  /-- There are too many fragments: nothing but the completion (R202). -/
  | errFragCount : 5 < s.ops.srcLen.toNat → t = complete .hmacVector .errFragCount s → EndsIn s t .hmacVector
  /-- The version is unsupported: the zero write has been made (R203). -/
  | errVersion : s.ops.version ≠ 2 → t.status.result = .errVersion → EndsIn s t .eapolMic
  /-- Past its checks a command completes with OK (R206). -/
  | ok {i : Instr} : PassesChecks i s → t.status.result = .ok → EndsIn s t i

theorem exec_endsIn {i : Instr} {s t : State} (h : exec i s = .next t) : EndsIn s t i := by
  cases i with
  | sha1Init =>
    cases h
    exact .ok ⟨by simp, by simp, by simp⟩ rfl
  | sha1Update =>
    obtain ⟨hv, -, rfl⟩ | ⟨hv, ht⟩ := execSha1Update_next h
    · exact .ok ⟨by simp [hv], by simp, by simp⟩ rfl
    · exact .errSequence (.inl rfl) hv ht
  | sha1Final =>
    obtain ⟨hv, -, rfl⟩ | ⟨hv, ht⟩ := execSha1Final_next h
    · exact .ok ⟨by simp [hv], by simp, by simp⟩ rfl
    · exact .errSequence (.inr rfl) hv ht
  | sha1Vector =>
    obtain ⟨frags, -, -, rfl⟩ := execSha1Vector_next h
    exact .ok ⟨by simp, by simp, by simp⟩ rfl
  | hmacVector =>
    obtain ⟨hn, ht⟩ | ⟨hn, -, frags, -, -, rfl⟩ := execHmacVector_next h
    · exact .errFragCount hn ht
    · exact .ok ⟨by simp, by simp [hn], by simp⟩ rfl
  | hmac =>
    obtain ⟨-, -, -, rfl⟩ := execHmac_next h
    exact .ok ⟨by simp, by simp, by simp⟩ rfl
  | eapolMic =>
    obtain ⟨-, ⟨hv, -, -, rfl⟩ | ⟨hv, rfl⟩⟩ := execEapolMic_next rfl h
    · exact .ok ⟨by simp, by simp, by simp [hv]⟩ rfl
    · exact .errVersion hv rfl

/-- A completion by itself draws the raced bytes of the destination, and leaves every other byte alone (R62). -/
theorem complete_memoryKept (i : Instr) (code : ResultCode) (s : State) : MemoryKept i s (complete i code s) :=
  ⟨fun _ ha => raceDestinations_read_other fun hd => ha ⟨inRanges_destination.1 hd.1, hd.2⟩,
    fun ht => raceDestinations_quiet _ ht⟩

/-- What a command that does nothing but complete leaves for the host to read (R202, R205). -/
theorem only_completes {i : Instr} {code : ResultCode} {s : State} (h : exec i s = .next (complete i code s)) :
    ∃ t, exec i s = .next t ∧ CompletedWith code t ∧ t.status.ctxValid = s.status.ctxValid ∧ t.ctx = s.ctx ∧
      MemoryKept i s t ∧ CommandFrame s t :=
  ⟨_, h, ⟨rfl, rfl, rfl⟩, rfl, rfl, complete_memoryKept i code s, exec_commandFrame h⟩

theorem exec_of_ctx_invalid {i : Instr} {s : State} (hi : i = .sha1Update ∨ i = .sha1Final)
    (hv : s.status.ctxValid = false) : exec i s = .next (complete i .errSequence s) := by
  obtain rfl | rfl := hi
  · rw [exec, execSha1Update, if_neg (by simp [hv])]
  · rw [exec, execSha1Final, if_neg (by simp [hv])]

theorem exec_hmacVector_of_lt {s : State} (hn : 5 < s.ops.srcLen.toNat) :
    exec .hmacVector s = .next (complete .hmacVector .errFragCount s) := by
  rw [exec, execHmacVector, if_pos hn]

/-! ### Where a command stops (R207, R208) -/

theorem commandAccesses_sha1Update {s : State} (hv : s.status.ctxValid = true) :
    commandAccesses .sha1Update s = [⟨.read, s.ops.srcAddr, s.ops.srcLen.toNat⟩] := by
  rw [commandAccesses, if_pos hv]

theorem commandAccesses_sha1Final {s : State} (hv : s.status.ctxValid = true) :
    commandAccesses .sha1Final s = [⟨.write, s.ops.dstAddr, 20⟩] := by
  rw [commandAccesses, if_pos hv, destLength]

theorem commandAccesses_hmacVector {s : State} (hn : s.ops.srcLen.toNat ≤ 5) : commandAccesses .hmacVector s =
    ⟨.read, s.ops.keyAddr, s.ops.keyLen.toNat⟩ :: fragmentReads s ++ [⟨.write, s.ops.dstAddr, 20⟩] := by
  rw [commandAccesses, if_neg (not_lt.2 hn), destLength]

/-- The zero write comes first, whatever the version is (R171). -/
theorem commandAccesses_eapolMic (s : State) : commandAccesses .eapolMic s =
    ⟨.write, s.ops.dstAddr, 16⟩ :: if s.ops.version = 2 then [⟨.read, s.ops.keyAddr, s.ops.keyLen.toNat⟩,
      ⟨.read, s.ops.srcAddr, s.ops.srcLen.toNat⟩, ⟨.write, s.ops.dstAddr, 16⟩] else [] := by
  rw [commandAccesses, destLength]
  split <;> rfl

theorem commandAccesses_eapolMic_of_version {s : State} (hv : s.ops.version = 2) : commandAccesses .eapolMic s =
    [⟨.write, s.ops.dstAddr, 16⟩, ⟨.read, s.ops.keyAddr, s.ops.keyLen.toNat⟩,
      ⟨.read, s.ops.srcAddr, s.ops.srcLen.toNat⟩, ⟨.write, s.ops.dstAddr, 16⟩] := by
  rw [commandAccesses_eapolMic, if_pos hv]

/-- A command answers a next state only when every one of its accesses passes its check. -/
theorem exec_next_admitted {i : Instr} {s t : State} (h : exec i s = .next t) :
    ∀ y ∈ commandAccesses i s, Admitted s y.kind y.addr y.len := by
  cases i with
  | sha1Init => simp [commandAccesses]
  | sha1Update =>
    obtain ⟨hv, hc, -⟩ | ⟨hv, -⟩ := execSha1Update_next h
    · rw [commandAccesses_sha1Update hv]
      exact List.forall_mem_singleton.2 hc
    · simp [commandAccesses, hv]
  | sha1Final =>
    obtain ⟨hv, hc, -⟩ | ⟨hv, -⟩ := execSha1Final_next h
    · rw [commandAccesses_sha1Final hv]
      exact List.forall_mem_singleton.2 hc
    · simp [commandAccesses, hv]
  | sha1Vector =>
    obtain ⟨frags, hf, hc, -⟩ := execSha1Vector_next h
    exact List.forall_mem_append.2 ⟨fragmentReads_admitted hf, List.forall_mem_singleton.2 hc⟩
  | hmacVector =>
    obtain ⟨hn, -⟩ | ⟨hn, hk, frags, hf, hc, -⟩ := execHmacVector_next h
    · simp [commandAccesses, hn]
    · rw [commandAccesses_hmacVector hn]
      exact List.forall_mem_cons.2
        ⟨hk, List.forall_mem_append.2 ⟨fragmentReads_admitted hf, List.forall_mem_singleton.2 hc⟩⟩
  | hmac =>
    obtain ⟨hk, hs, hc, -⟩ := execHmac_next h
    simpa [commandAccesses] using ⟨hk, hs, hc⟩
  | eapolMic =>
    obtain ⟨hc, ⟨hv, hk, hs, -⟩ | ⟨hv, -⟩⟩ := execEapolMic_next rfl h
    · rw [commandAccesses_eapolMic_of_version hv]
      simpa using ⟨hc, hk, hs, hc⟩
    · rw [commandAccesses_eapolMic, if_neg hv]
      exact List.forall_mem_singleton.2 hc

/-- A command reaches at most one access that does not pass its check: the first. -/
theorem reaches_unique {i : Instr} {s : State} {x y : EngineAccess} (hx : Reaches i s x) (hy : Reaches i s y)
    (hx' : ¬ Admitted s x.kind x.addr x.len) (hy' : ¬ Admitted s y.kind y.addr y.len) : x = y := by
  classical
  have first : ∀ {z}, Reaches i s z → ¬ Admitted s z.kind z.addr z.len →
      (commandAccesses i s).find? (fun a => ¬ Admitted s a.kind a.addr a.len) = some z := by
    rintro z ⟨before, after, hz, hb⟩ hz'
    exact List.find?_eq_some_iff_append.2 ⟨by simpa using hz', before, after, hz, by simpa using hb⟩
  exact Option.some.inj ((first hx hx').symm.trans (first hy hy'))

/-- A command ends in BusFault at a refused access, when every access before it passes its check. -/
theorem faultsAt_of_accesses {i : Instr} {s : State} {before after : List EngineAccess} {k : AccessKind} {a n : Nat}
    (hacc : commandAccesses i s = before ++ ⟨k, a, n⟩ :: after) (hb : ∀ y ∈ before, Admitted s y.kind y.addr y.len)
    (hr : Refused s k a n) : FaultsAt i s a := by
  have hcheck := checkAccess_of_refused hr
  have hno : ¬ Admitted s k a n := by simp [Admitted, hcheck]
  obtain ⟨t, hnext⟩ | ⟨y, e, hy, hye, ho⟩ := exec_next_or_stops i s
  · exact absurd (exec_next_admitted hnext ⟨k, a, n⟩ (by simp [hacc])) hno
  · obtain rfl : ⟨k, a, n⟩ = y := reaches_unique ⟨before, after, hacc, hb⟩ hy hno (by simp [Admitted, hye])
    obtain rfl := Except.error.inj (hcheck.symm.trans hye)
    exact ho

/-- The reads of `ReadFrags` before that of fragment `k`, and those after it (R56). -/
theorem fragmentReads_split {s : State} {k : Nat} (hk : k < s.ops.srcLen.toNat) :
    ∃ after, fragmentReads s = (⟨.read, s.ops.srcAddr, 16 * s.ops.srcLen.toNat⟩ ::
      (List.range k).map (fragmentRead s)) ++ fragmentRead s k :: after := by
  have hsplit : List.range s.ops.srcLen.toNat = List.range k ++ k :: (List.range s.ops.srcLen.toNat).drop (k + 1) := by
    conv_lhs => rw [← List.take_append_drop k (List.range s.ops.srcLen.toNat)]
    rw [List.take_range, Nat.min_eq_left hk.le, List.drop_eq_getElem_cons (by simpa using hk), List.getElem_range]
  exact ⟨_, by rw [fragmentReads, hsplit, List.map_append, List.map_cons, List.cons_append]⟩

/-- The accesses a command makes before its fragment table all pass their checks, and after the fragments comes the write of
its 20-byte result. -/
structure ReadsFragments (i : Instr) (s : State) (before : List EngineAccess) : Prop where
  accesses : commandAccesses i s = before ++ fragmentReads s ++ [⟨.write, s.ops.dstAddr, 20⟩]
  admitted : ∀ y ∈ before, Admitted s y.kind y.addr y.len

section
variable {i : Instr} {s : State} {before : List EngineAccess} (h : ReadsFragments i s before)
include h

theorem ReadsFragments.faultsAt_table (hr : Refused s .read s.ops.srcAddr (16 * s.ops.srcLen.toNat)) :
    FaultsAt i s s.ops.srcAddr :=
  faultsAt_of_accesses (h.accesses.trans (by rw [fragmentReads, List.append_assoc, List.cons_append])) h.admitted hr

theorem ReadsFragments.faultsAt_fragment {k : Nat}
    (hk : FirstRefusedFragment s s.ops.srcAddr s.ops.srcLen.toNat k) :
    FaultsAt i s (fragAddr (tableBytes s s.ops.srcAddr s.ops.srcLen.toNat) k) := by
  obtain ⟨hlt, htable, hfrags, hr⟩ := hk
  obtain ⟨after, hsplit⟩ := fragmentReads_split hlt
  have hacc := h.accesses
  rw [hsplit, ← List.append_assoc, List.append_assoc _ (_ :: after), List.cons_append] at hacc
  refine faultsAt_of_accesses hacc (List.forall_mem_append.2 ⟨h.admitted, ?_⟩) hr
  refine List.forall_mem_cons.2 ⟨htable, fun y hy => ?_⟩
  obtain ⟨j, hj, rfl⟩ := List.mem_map.1 hy
  exact hfrags j (List.mem_range.1 hj)

theorem ReadsFragments.faultsAt_destination (hf : FragsAdmitted s s.ops.srcAddr s.ops.srcLen.toNat)
    (hr : Refused s .write s.ops.dstAddr 20) : FaultsAt i s s.ops.dstAddr :=
  faultsAt_of_accesses h.accesses
    (List.forall_mem_append.2 ⟨h.admitted, fragmentReads_admitted (readFrags_of_admitted hf)⟩) hr

end

theorem readsFragments_sha1Vector (s : State) : ReadsFragments .sha1Vector s [] := ⟨rfl, by simp⟩

theorem readsFragments_hmacVector {s : State} (hn : s.ops.srcLen.toNat ≤ 5)
    (hk : Admitted s .read s.ops.keyAddr s.ops.keyLen.toNat) :
    ReadsFragments .hmacVector s [⟨.read, s.ops.keyAddr, s.ops.keyLen.toNat⟩] :=
  ⟨commandAccesses_hmacVector hn, List.forall_mem_singleton.2 hk⟩

/-! ### How a turn stops (R32, R58, R207) -/

/-- With no turn waiting, the step is the engine's turn. -/
theorem step_of_no_turn {s : State} (h : s.agenda = []) : step s = engineTurn s := by
  simp only [step, nextTurn, h]

/-- The engine's turn while idle (R219). -/
theorem engineTurn_of_idle {s : State} (hi : s.status.busy = false) : engineTurn s = .next s := by
  rw [engineTurn, if_neg (by simp [hi])]

/-- The host makes the next turn an access that the window does not answer, and `o` names it (R32). -/
abbrev HostStops (s : State) (o : Host.Outcome State Fault Refusal) : Prop :=
  ∃ (addr : Addr) (w : Nat) (rest : List Turn),
    ((∃ v, s.agenda = .write addr w v :: rest) ∨ s.agenda = .read addr w :: rest) ∧ windowOffset s addr w = none ∧
      o = .refused (.windowAccess addr.toNat w)

/-- The engine runs a legal word, and its command stops with `o` (R41, R208). -/
abbrev EngineStops (s : State) (o : Host.Outcome State Fault Refusal) : Prop :=
  s.status.busy = true ∧ ∃ i, decode s.cmdlat = .ok i ∧ StopsThere i s o

theorem engineTurn_next_or_stops (s : State) : (∃ t, engineTurn s = .next t) ∨ EngineStops s (engineTurn s) := by
  cases hb : s.status.busy with
  | false => exact .inl ⟨s, engineTurn_of_idle hb⟩
  | true =>
    cases hi : decode s.cmdlat with
    | error e => exact .inl ⟨_, engineTurn_of_illegal hb ⟨e, hi⟩⟩
    | ok i =>
      rw [engineTurn_of_legal hb hi]
      exact (exec_next_or_stops i s).imp_right fun h => ⟨hb, i, hi, h⟩

/-- Taking the engine's turn off the agenda changes neither the accesses of the command nor their checks. -/
theorem engineStops_of_engine_turn {s : State} {rest : List Turn} {o : Host.Outcome State Fault Refusal}
    (ha : s.agenda = .engine :: rest) (h : EngineStops { s with agenda := rest } o) : EngineStops s o := by
  obtain ⟨hb, i, hi, x, e, ⟨before, after, hacc, hbefore⟩, hx, ho⟩ := h
  have hsame : commandAccesses i { s with agenda := rest } = commandAccesses i s :=
    commandAccesses_congr (s := s) (u := { s with agenda := rest }) rfl rfl
      (engineBytes_congr (s := s) (u := { s with agenda := rest }) rfl rfl rfl (upcoming_engine ha) rfl rfl) i
  exact ⟨hb, i, hi, x, e, ⟨before, after, hsame.symm.trans hacc, hbefore⟩, hx, ho⟩

/-- Everything a step can do: it answers a next state, or the host's access stops it, or the engine's turn does. -/
theorem step_next_or_stops (s : State) : (∃ t, step s = .next t) ∨ HostStops s (step s) ∨
    ((s.agenda = [] ∨ ∃ rest, s.agenda = .engine :: rest) ∧ EngineStops s (step s)) := by
  cases ha : s.agenda with
  | nil =>
    rw [step_of_no_turn ha]
    exact (engineTurn_next_or_stops s).imp_right fun h => .inr ⟨.inl rfl, h⟩
  | cons turn rest =>
    cases turn with
    | engine =>
      rw [step_of_agenda ha]
      exact (engineTurn_next_or_stops { s with agenda := rest }).imp_right fun h =>
        .inr ⟨.inr ⟨rest, rfl⟩, engineStops_of_engine_turn ha h⟩
    | write addr w v =>
      cases ho : windowOffset s addr w with
      | some offset => exact .inl ⟨_, step_of_write ha ho⟩
      | none =>
        have ho' : windowOffset { s with agenda := rest } addr w = none := ho
        exact .inr (.inl ⟨addr, w, rest, .inl ⟨v, ha⟩, ho, by simp only [step_of_agenda ha, takeTurn, ho']⟩)
    | read addr w =>
      cases ho : windowOffset s addr w with
      | some offset => exact .inl ⟨_, step_of_read ha ho⟩
      | none =>
        have ho' : windowOffset { s with agenda := rest } addr w = none := ho
        exact .inr (.inl ⟨addr, w, rest, .inr ha, ho, by simp only [step_of_agenda ha, takeTurn, ho']⟩)
    | poll | reset | store | load | clean | invalidate => exact .inl ⟨_, step_of_agenda ha⟩

/-- The two ways an access stops a command: it is refused, or it touches device memory (R51, R52, R58). -/
theorem stopsThere_cases {i : Instr} {s : State} {o : Host.Outcome State Fault Refusal} (h : StopsThere i s o) :
    ∃ x, Reaches i s x ∧
      ((Refused s x.kind x.addr x.len ∧ o = .fault (.busFault x.addr s.cmdlat)) ∨
        (¬ Refused s x.kind x.addr x.len ∧ touchesDevice s.platform x.addr x.len = true ∧
          o = .refused (.deviceMemory x.addr))) := by
  obtain ⟨x, e, hx, he, rfl⟩ := h
  obtain ⟨h0, ⟨rfl, hr⟩ | ⟨rfl, hr, hd⟩⟩ := checkAccess_error he
  · exact ⟨x, hx, .inl ⟨⟨h0, hr⟩, rfl⟩⟩
  · exact ⟨x, hx, .inr ⟨fun hr' => hr hr'.2, hd, rfl⟩⟩

/-! ### The obligations -/

/-- Settles O25: a step that does not answer a next state is a host access outside the window, or stops at an access of the
command. -/
theorem howAStepStops : Obligations.HowAStepStops := by
  intro s
  refine ⟨fun f hf => ?_, fun r hr => ?_⟩
  · obtain ⟨t, hnext⟩ | ⟨addr, w, rest, -, -, ho⟩ | ⟨hturn, hb, i, hi, hstop⟩ := step_next_or_stops s
    · cases hf.symm.trans hnext
    · cases hf.symm.trans ho
    · obtain ⟨x, hx, ⟨href, ho⟩ | ⟨-, -, ho⟩⟩ := stopsThere_cases hstop
      · exact ⟨hb, hturn, i, x, hi, hx, href, Host.Outcome.fault.inj (hf.symm.trans ho)⟩
      · cases hf.symm.trans ho
  · obtain ⟨t, hnext⟩ | ⟨addr, w, rest, hturn, hno, ho⟩ | ⟨hturn, hb, i, hi, hstop⟩ := step_next_or_stops s
    · cases hr.symm.trans hnext
    · exact .inl ⟨addr, w, rest, hturn, hno, Host.Outcome.refused.inj (hr.symm.trans ho)⟩
    · obtain ⟨x, hx, ⟨-, ho⟩ | ⟨href, hd, ho⟩⟩ := stopsThere_cases hstop
      · cases hr.symm.trans ho
      · exact .inr ⟨hb, hturn, i, x, hi, hx, href, hd, Host.Outcome.refused.inj (hr.symm.trans ho)⟩

/-- Settles O52: in each clause the command reaches the refused access, which is the one it stops at. -/
theorem firstRefusedAccessFaults : Obligations.FirstRefusedAccessFaults := by
  intro s
  have vector := readsFragments_sha1Vector s
  refine ⟨fun hv hr => ?_, fun hv hr => ?_, ⟨vector.faultsAt_table, fun _ => vector.faultsAt_fragment,
    vector.faultsAt_destination⟩, fun hn => ⟨fun hr => ?_, fun hk => ?_⟩,
    ⟨fun hr => ?_, fun hk => ⟨fun hr => ?_, fun hs hr => ?_⟩⟩, fun hr => ?_,
    fun hd hv => ⟨fun hr => ?_, fun hk hr => ?_⟩⟩
  · exact faultsAt_of_accesses (before := []) (commandAccesses_sha1Update hv) (by simp) hr
  · exact faultsAt_of_accesses (before := []) (commandAccesses_sha1Final hv) (by simp) hr
  · exact faultsAt_of_accesses (before := []) (commandAccesses_hmacVector hn) (by simp) hr
  · have keyed := readsFragments_hmacVector hn hk
    exact ⟨keyed.faultsAt_table, fun _ => keyed.faultsAt_fragment, keyed.faultsAt_destination⟩
  · exact faultsAt_of_accesses (i := .hmac) (before := []) rfl (by simp) hr
  · exact faultsAt_of_accesses (i := .hmac) (before := [_]) rfl (by simpa using hk) hr
  · exact faultsAt_of_accesses (i := .hmac) (before := [_, _]) rfl (by simpa using ⟨hk, hs⟩) hr
  · exact faultsAt_of_accesses (before := []) (commandAccesses_eapolMic s) (by simp) hr
  · exact faultsAt_of_accesses (before := [_]) (commandAccesses_eapolMic_of_version hv) (by simpa using hd) hr
  · exact faultsAt_of_accesses (before := [_, _]) (commandAccesses_eapolMic_of_version hv) (by simpa using ⟨hd, hk⟩) hr

/-- Settles O58: but for EAPOL_MIC, a command that fails a check does nothing but complete. -/
theorem noPartialOutput : Obligations.NoPartialOutput := by
  intro i s t h hfailed
  cases exec_endsIn h with
  | errSequence _ _ ht => exact .inl (ht ▸ complete_memoryKept _ _ s)
  | errFragCount _ ht => exact .inl (ht ▸ complete_memoryKept _ _ s)
  | errVersion _ hr => exact .inr ⟨rfl, hr⟩
  | ok _ hr => exact absurd hr hfailed

/-- Settles O59: a command fails one check at most, and past its checks completes with OK. -/
theorem resultCodeOfCommand : Obligations.ResultCodeOfCommand := by
  intro i s t h
  cases exec_endsIn h with
  | errSequence hi hv ht => rw [if_pos ⟨hi, hv⟩, ht, complete_status]
  | errFragCount hn ht => rw [if_neg (by simp), if_pos ⟨rfl, hn⟩, ht, complete_status]
  | errVersion hv hr => rw [if_neg (by simp), if_neg (by simp), if_pos ⟨rfl, hv⟩, hr]
  | ok hc hr => rw [if_neg hc.sequence, if_neg hc.fragCount, if_neg hc.version, hr]

/-- Settles O7: the engine's turn is no step while idle, in either of its positions. -/
theorem idleEngineTakesNoStep : Obligations.IdleEngineTakesNoStep := fun s hidle =>
  ⟨fun h => (step_of_no_turn h).trans (engineTurn_of_idle hidle),
    fun rest h => (step_of_agenda h).trans (engineTurn_of_idle (s := { s with agenda := rest }) hidle)⟩

/-- Settles O45: the check of CTX_VALID comes before any access. -/
theorem sequenceError : Obligations.SequenceError := by
  intro s i hi hv
  rw [← hv]
  exact only_completes (exec_of_ctx_invalid hi hv)

/-- Settles O48: the check of the count comes before any access, and no other end of a command has its code. -/
theorem fragmentCountError : Obligations.FragmentCountError := by
  refine ⟨fun s hn => only_completes (exec_hmacVector_of_lt hn), fun i s t h hcode => ?_⟩
  cases exec_endsIn h with
  | errSequence _ _ ht => simp [ht] at hcode
  | errFragCount hn _ => exact ⟨rfl, hn⟩
  | errVersion _ hr => simp [hr] at hcode
  | ok _ hr => simp [hr] at hcode

end Sys2Proof.Machine

/-! ## The reset input (70_reset_and_hazards.md)

What reset leaves: engine state at its reset values, and in memory a draw in each byte of an aborted destination that is a
byte of system memory (R230, R231; log 13). -/

namespace Sys2Proof.Machine

/-! ### What aborting a command leaves in memory (R231) -/

/-- The bytes of memory after a range of it is drawn. -/
theorem drawBytes_read {m : Memory} (hm : m.wf) (draw : Nat) (use : FreeUse) (a n b : Nat) :
    (drawBytes draw use m a n).read b = if a ≤ b ∧ b < a + n then Config.freeByte draw use b else m.read b := by
  rw [drawBytes, read_writeBytes m hm.1, List.length_map, List.length_range]
  refine if_ctx_congr Iff.rfl (fun h => ?_) fun _ => rfl
  have hk : b - a < n := by omega
  have hb : a + (b - a) = b := by omega
  simp [hk, hb]

/-- An aborted range holds draws as far as it lies in system memory (R50); every other byte is as before. -/
theorem abortRange_read {s : State} (hm : s.mem.wf) (r : Range) (b : Nat) :
    (abortRange s r).mem.read b =
      if inRange r b = true ∧ b < 2 ^ 64 then Config.freeByte s.draws .abortedDestination b else s.mem.read b := by
  refine (drawBytes_read hm _ _ _ _ b).trans (if_congr ?_ rfl rfl)
  simp only [inRange, Bool.and_eq_true, decide_eq_true_eq]
  omega

/-- Every aborted range draws at the draw number reset began with, so that a byte in two of them holds one draw. -/
theorem foldl_abortRange_read (rs : List Range) {s : State} (hm : s.mem.wf) (b : Nat) :
    (rs.foldl abortRange s).mem.read b =
      if inRanges rs b = true ∧ b < 2 ^ 64 then Config.freeByte s.draws .abortedDestination b else s.mem.read b := by
  induction rs generalizing s with
  | nil => simp [inRanges]
  | cons r rs ih =>
    rw [List.foldl_cons, ih (abortRange_mem_wf hm r), abortRange_read hm, abortRange_draws, ← ite_or]
    have hcons : inRanges (r :: rs) b = (inRange r b || inRanges rs b) := rfl
    refine if_congr ?_ rfl rfl
    rw [hcons, Bool.or_eq_true, or_and_right, or_comm]

theorem foldl_abortRange_agenda (rs : List Range) (s : State) : (rs.foldl abortRange s).agenda = s.agenda := by
  induction rs generalizing s with
  | nil => rfl
  | cons r rs ih => exact ih (abortRange s r)

theorem latchedDestination_of_ok {s : State} {i : Instr} (h : decode s.cmdlat = .ok i) :
    latchedDestination s = destination i s.ops := by
  rw [latchedDestination, h]

/-- An illegal word has no destination (R204). -/
theorem latchedDestination_of_illegal {s : State} (h : ∀ i, decode s.cmdlat ≠ .ok i) : latchedDestination s = [] := by
  rw [latchedDestination]
  split
  next i hi => exact absurd hi (h i)
  next => rfl

/-! ### The turn of the reset input (R230, R231) -/

/-- Whether or not it aborts a command, the reset input ends with the reset of the engine and takes no turn. -/
theorem resetTurn_eq_resetEngine (s : State) : ∃ u, resetTurn s = resetEngine u ∧ u.agenda = s.agenda := by
  rw [resetTurn]
  split
  · exact ⟨abortCommand s, rfl, foldl_abortRange_agenda (latchedDestination s) s⟩
  · exact ⟨s, rfl, rfl⟩

theorem resetTurn_mem_of_idle {s : State} (h : s.status.busy = false) : (resetTurn s).mem = s.mem := by
  rw [resetTurn, h]
  rfl

theorem resetTurn_mem_of_busy {s : State} (h : s.status.busy = true) :
    (resetTurn s).mem = ((latchedDestination s).foldl abortRange s).mem := by
  rw [resetTurn, if_pos h]
  rfl

/-- With no command in progress that has a destination, memory is as before. -/
theorem resetTurn_mem_of_no_command {s : State} (h : s.status.busy = false ∨ ∀ i, decode s.cmdlat ≠ .ok i) :
    (resetTurn s).mem = s.mem := by
  cases hb : s.status.busy with
  | false => exact resetTurn_mem_of_idle hb
  | true =>
    have hillegal := h.resolve_left (by simp [hb])
    rw [resetTurn_mem_of_busy hb, latchedDestination_of_illegal hillegal]
    rfl

/-- The bytes of memory after the reset input aborts a command. -/
theorem resetTurn_read_of_command {s : State} {i : Instr} (hm : s.mem.wf) (hb : s.status.busy = true)
    (hi : decode s.cmdlat = .ok i) (a : Nat) :
    (resetTurn s).mem.read a =
      if InDestination i s a ∧ a < 2 ^ 64 then Config.freeByte s.draws .abortedDestination a else s.mem.read a := by
  rw [resetTurn_mem_of_busy hb, latchedDestination_of_ok hi, foldl_abortRange_read _ hm]
  exact if_congr (and_congr_left' inRanges_destination) rfl rfl

/-! ### The obligation -/

/-- Settles O19: reset ends with the reset of the engine, and an abort before it draws the bytes of the destination alone. -/
theorem resetInput : Obligations.ResetInput := by
  intro s rest hm ha
  obtain ⟨u, hu, hagenda⟩ := resetTurn_eq_resetEngine { s with agenda := rest }
  have hstep : step s = .next (resetEngine u) := (step_of_agenda ha).trans (congrArg _ hu)
  have hkept := resetTurn_mem_of_no_command (s := { s with agenda := rest })
  rw [hu] at hkept
  refine ⟨resetEngine u, hstep, rfl, rfl, rfl, rfl, rfl, hagenda, hkept, fun i hb hi => ?_⟩
  have hread := resetTurn_read_of_command (s := { s with agenda := rest }) hm hb hi
  rw [hu] at hread
  exact ⟨fun a hout => (hread a).trans (if_neg fun h => hout h.1), fun a hlt hin => (hread a).trans (if_pos ⟨hin, hlt⟩)⟩

end Sys2Proof.Machine
